-- ==== Sys2Proof/Word.lean ====
section
/-! DEFINITION. The widths of the block (spec/00_scope.md R5, R7): the spec fixes each one, so each is a plain bit-vector type. -/

namespace Sys2Proof

/-- A logic level or a one-bit flag (R7): `true` is 1 (high, or released on the data line), `false` is 0 (low, driven low). -/
abbrev Level := Bool

/-- A transferred byte, `BYTE_W` = 8 bits (R5); bit 7 is the first on the wire (R54). -/
abbrev Byte := BitVec 8

/-- A command word, `CMD_W` = 12 bits (R70). -/
abbrev CmdWord := BitVec 12

/-- A value of the settle-delay registers, `TS_W` = 16 bits (R17, R19). -/
abbrev Delay := BitVec 16

/-- The micro-step counter, `UPC_W` = 5 bits (R18). -/
abbrev MicroStep := BitVec 5

/-- A host register access, `REG_W` = 32 bits (R40). -/
abbrev RegWord := BitVec 32

end Sys2Proof
end

