-- ==== Sys2Proof/Syntax.lean ====
section
/-! DEFINITION. The six commands (spec/30_encoding.md R72, spec/opcode_table.json), the three micro-operations they expand to
(spec/40_line_driver.md) and the assembler lines of spec/30_encoding.md R79, R80. -/

namespace Sys2Proof

/-- The command set: one constructor per row of the opcode table.
A constructor carries ALL eight bits of the word's `data` field. Those a command does not use have no effect on what it does,
but they are stored in `CMDREG` and read back through `CMD` (R74), so the syntax keeps them. -/
inductive Instr where
  /-- `START` (R120), op 0x1: start condition, also the repeated start. `data` is ignored. -/
  | start (data : Byte)
  /-- `STOP` (R121), op 0x2: stop condition. `data` is ignored. -/
  | stop (data : Byte)
  /-- `SENDB b` (R132), op 0x3: send a byte, ninth clock not interpreted. -/
  | sendb (b : Byte)
  /-- `SENDBA b` (R133), op 0x4: send a byte and sample the acknowledge. -/
  | sendba (b : Byte)
  /-- `RECVB` (R134), op 0x5: receive a byte. `data` is ignored. -/
  | recvb (data : Byte)
  /-- `SENDACK a` (R135), op 0x6: `a` = `data[0]`; `dataHi` = `data[7:1]` is ignored. -/
  | sendack (a : Level) (dataHi : BitVec 7)
deriving DecidableEq, Repr

/-- The command's mnemonic, as spec/opcode_table.json spells it. -/
def Instr.mnemonic : Instr → String
  | .start _ => "START"
  | .stop _ => "STOP"
  | .sendb _ => "SENDB"
  | .sendba _ => "SENDBA"
  | .recvb _ => "RECVB"
  | .sendack _ _ => "SENDACK"

/-- Where the level sampled by `RD()` goes (R104). -/
inductive RdDest where
  /-- `SENDBA`, micro-step 26: `ACKIN`, and `NACKF` if it is 1. -/
  | ackIn
  /-- `RECVB`: bit `i` of `RXSHIFT`. -/
  | rxShift (i : Fin 8)
deriving DecidableEq, Repr

/-- A line-driver micro-operation (R90). It has no encoding and the host cannot issue one (R78). -/
inductive Uop where
  /-- `SC(l)`: set the clock line (R91). -/
  | sc (l : Level)
  /-- `SD(l)`: set the data line; 1 releases it (R92). -/
  | sd (l : Level)
  /-- `RD()`: read the data line into `dest` (R93, R104). -/
  | rd (dest : RdDest)
deriving DecidableEq, Repr

/-- The direction flag of an address byte (R81): transmit is 0, receive is 1. -/
inductive Direction where
  | write
  | read
deriving DecidableEq, Repr

/-- One line of the assembler (R79) or a pseudo-instruction of it (R80). Operands are numbers as written: whether they are in
range is checked by `Asm.wellFormed`, since an operand out of range is an assembly error and not a truncation. -/
inductive Asm where
  | start
  | stop
  | sendb (b : Nat)
  | sendba (b : Nat)
  | recvb
  | sendack (a : Nat)
  | ack
  | nack
  | recvbAck
  | recvbNack
  | rstart
  | sendaddr (a7 : Nat) (dir : Direction)
deriving DecidableEq, Repr

/-- The line as R79 and R80 spell it (numbers in decimal). -/
def Asm.text : Asm → String
  | .start => "START"
  | .stop => "STOP"
  | .sendb b => "SENDB " ++ toString b
  | .sendba b => "SENDBA " ++ toString b
  | .recvb => "RECVB"
  | .sendack a => "SENDACK " ++ toString a
  | .ack => "ACK"
  | .nack => "NACK"
  | .recvbAck => "RECVB.ACK"
  | .recvbNack => "RECVB.NACK"
  | .rstart => "RSTART"
  | .sendaddr a7 .write => "SENDADDR " ++ toString a7 ++ ", W"
  | .sendaddr a7 .read => "SENDADDR " ++ toString a7 ++ ", R"

end Sys2Proof
end

