-- ==== Sys2Proof/WellFormed.lean ====
section
/-! DEFINITION. What the spec calls well-formed: a command word an assembler writes (R74), an assembler line (R79, R80), a
host access (R52, V8) and a command sequence (R153). The hardware checks none of the sequence rules (R154); they say which
host programs are correct. -/

namespace Sys2Proof

/-- The operand bits the command ignores are zero, as an assembler writes them (R74). Execution does not need this: a model
must accept any value in them. -/
def Instr.isCanonical : Instr → Bool
  | .start d | .stop d | .recvb d => d == 0
  | .sendb _ | .sendba _ => true
  | .sendack _ hi => hi == 0

/-- The operand ranges of R79 and R80: 0 ≤ b ≤ 255, a = 0 or 1, 0 ≤ a7 ≤ 127. -/
def Asm.wellFormed : Asm → Bool
  | .sendb b | .sendba b => b ≤ 255
  | .sendack a => a ≤ 1
  | .sendaddr a7 _ => a7 ≤ 127
  | .start | .stop | .recvb | .ack | .nack | .recvbAck | .recvbNack | .rstart => true

/-- The only access width is 32 bits (R52): four bytes. -/
def widthOk (bytes : Nat) : Bool := bytes == 4

/-- An offset is a multiple of 4 (R52). -/
def alignedOk (off : Nat) : Bool := off % 4 == 0

/-- The block occupies the 32 bytes `BASE` to `BASE + 0x1F` (R41). -/
def insideBlock (off : Nat) : Bool := off < 0x20

/-- What may follow the first `START` of a transaction: `Phase* STOP` (R153). -/
def phasesThenStop : List Instr → Bool
  | [.stop _] => true
  | .sendb _ :: rest | .sendba _ :: rest | .start _ :: rest => phasesThenStop rest
  | .recvb _ :: .sendack _ _ :: rest => phasesThenStop rest
  | _ => false

/-- The grammar `Transaction := START Phase+ STOP | START STOP` (R153). -/
def isTransaction : List Instr → Bool
  | .start _ :: rest => phasesThenStop rest
  | _ => false

/-- Where a reader of the documented use stands inside a transaction (R153, second half). -/
inductive UsePhase where
  /-- right after a `START`: the address byte must come (R155) -/
  | address
  /-- after an address byte with direction write: `SEND` phases -/
  | sending
  /-- after an address byte with direction read: `RECVB SENDACK` phases; `mayEnd` says the last answer was `SENDACK 1` -/
  | receiving (mayEnd : Bool)
deriving DecidableEq, Repr

/-- The documented use (R153): the first command after each `START` is the `SEND` of an address byte, `SEND` phases follow
direction write, `RECVB SENDACK` phases follow direction read, and the last `SENDACK` before a `STOP` or a repeated `START`
is `SENDACK 1`. -/
def documentedFrom : UsePhase → List Instr → Bool
  | .address, .sendb b :: rest | .address, .sendba b :: rest =>
    documentedFrom (if b.getLsbD 0 then .receiving true else .sending) rest
  | .sending, .sendb _ :: rest | .sending, .sendba _ :: rest => documentedFrom .sending rest
  | .receiving _, .recvb _ :: .sendack a _ :: rest => documentedFrom (.receiving a) rest
  | .sending, .start _ :: rest | .receiving true, .start _ :: rest => documentedFrom .address rest
  | .sending, [.stop _] | .receiving true, [.stop _] => true
  | _, _ => false

/-- A transaction of the grammar that also follows the documented use; `START STOP` sends no byte at all and is one (R153). -/
def isDocumentedTransaction : List Instr → Bool
  | [.start _, .stop _] => true
  | .start _ :: rest => documentedFrom .address rest
  | _ => false

/-- A host program as a series of transactions, each well-formed (R153). -/
def isWellFormedProgram (ts : List (List Instr)) : Bool := ts.all isDocumentedTransaction

end Sys2Proof
end

