-- ==== Sys2Proof/Decode.lean ====
section
/-! DEFINITION. Decoding (spec/30_encoding.md R70 to R75, R82), then the encoder, the opcode map as a table (R72) and the
assembler (R79 to R81). -/

namespace Sys2Proof

/-- What a 12-bit word stands for (R82): a command, or a reserved encoding, rejected with its opcode. -/
inductive Decoded where
  | command (i : Instr)
  | reserved (op : BitVec 4)
deriving DecidableEq, Repr

/-- Field `op`, bits 11:8 (R71). -/
def opcodeField (w : CmdWord) : BitVec 4 := w.extractLsb' 8 4

/-- Field `data`, bits 7:0 (R71). -/
def dataField (w : CmdWord) : Byte := w.extractLsb' 0 8

/-- `Decode(w)`, total on every 12-bit word (R82). -/
def decode (w : CmdWord) : Decoded :=
  if opcodeField w = 0x1#4 then .command (.start (dataField w))
  else if opcodeField w = 0x2#4 then .command (.stop (dataField w))
  else if opcodeField w = 0x3#4 then .command (.sendb (dataField w))
  else if opcodeField w = 0x4#4 then .command (.sendba (dataField w))
  else if opcodeField w = 0x5#4 then .command (.recvb (dataField w))
  else if opcodeField w = 0x6#4 then
    .command (.sendack ((dataField w).getLsbD 0) ((dataField w).extractLsb' 1 7))
  else .reserved (opcodeField w)

/-- The command in a 32-bit write of `CMD`: bits 11:0; bits 31:12 are ignored (R44). -/
def cmdOfWrite (v : RegWord) : CmdWord := v.extractLsb' 0 12

/-- The command, if the word is one. -/
def Decoded.toOption : Decoded → Option Instr
  | .command i => some i
  | .reserved _ => none

/-- What the decoder reads from an opcode-table row's bits: the low bits of a write of `CMD`, every bit above `nbits` zero. -/
def decodeTableWord (nbits w : Nat) : Option Instr :=
  (decode (cmdOfWrite (BitVec.ofNat 32 (w % 2 ^ nbits)))).toOption

/-- The opcode of a command (R72). -/
def Instr.op : Instr → BitVec 4
  | .start _ => 0x1#4
  | .stop _ => 0x2#4
  | .sendb _ => 0x3#4
  | .sendba _ => 0x4#4
  | .recvb _ => 0x5#4
  | .sendack _ _ => 0x6#4

/-- The eight bits of a command's `data` field (R73, R74). -/
def Instr.data : Instr → Byte
  | .start d | .stop d | .recvb d => d
  | .sendb b | .sendba b => b
  | .sendack a hi => hi ++ BitVec.ofBool a

/-- The word of a command, `oooo dddddddd` (R71). -/
def encode (i : Instr) : CmdWord := i.op ++ i.data

/-- The command with its ignored bits zero, which is what an assembler writes (R74) and what R82's `Encode` encodes. -/
def Instr.canonical : Instr → Instr
  | .start _ => .start 0
  | .stop _ => .stop 0
  | .sendb b => .sendb b
  | .sendba b => .sendba b
  | .recvb _ => .recvb 0
  | .sendack a _ => .sendack a 0

/-- A row of the opcode map (R72). -/
structure OpcodeRow where
  mnemonic : String
  pattern : CmdWord
  mask : CmdWord
deriving DecidableEq, Repr

/-- The opcode map (R72, spec/opcode_table.json): a word `w` selects the row whose `match` equals `w & mask`. -/
def opcodeMap : List OpcodeRow :=
  [⟨"START", 0x100#12, 0xF00#12⟩, ⟨"STOP", 0x200#12, 0xF00#12⟩, ⟨"SENDB", 0x300#12, 0xF00#12⟩,
   ⟨"SENDBA", 0x400#12, 0xF00#12⟩, ⟨"RECVB", 0x500#12, 0xF00#12⟩, ⟨"SENDACK", 0x600#12, 0xF00#12⟩]

/-- The row selects the word. -/
def OpcodeRow.selects (r : OpcodeRow) (w : CmdWord) : Bool := w &&& r.mask == r.pattern

/-- The direction flag as a bit (R81): write 0, read 1. -/
def Direction.bit : Direction → Level
  | .write => false
  | .read => true

/-- The address byte `a7 ++ dir` (R81, R155). The controller knows nothing of it. -/
def addressByte (a7 : BitVec 7) (dir : Direction) : Byte := a7 ++ BitVec.ofBool dir.bit

/-- The commands a well-formed assembler line stands for (R79, R80). -/
def Asm.expand : Asm → List Instr
  | .start | .rstart => [.start 0]
  | .stop => [.stop 0]
  | .sendb b => [.sendb (BitVec.ofNat 8 b)]
  | .sendba b => [.sendba (BitVec.ofNat 8 b)]
  | .recvb => [.recvb 0]
  | .sendack a => [.sendack (a == 1) 0]
  | .ack => [.sendack false 0]
  | .nack => [.sendack true 0]
  | .recvbAck => [.recvb 0, .sendack false 0]
  | .recvbNack => [.recvb 0, .sendack true 0]
  | .sendaddr a7 dir => [.sendba (addressByte (BitVec.ofNat 7 a7) dir)]

/-- Assembly: the words written to `CMD`, or nothing where an operand is out of range (R79: an assembly error). -/
def Asm.assemble (l : Asm) : Option (List CmdWord) :=
  if l.wellFormed then some (l.expand.map encode) else none

end Sys2Proof
end

