-- ==== Sys2Proof/Config.lean ====
section
/-! DEFINITION. What the spec leaves to the platform (spec/00_scope.md R5, spec/92_eei_decisions.md "Open parameters") and the
free input of the environment. Every constant here has no body: no proof can see a value of it. -/

namespace Sys2Proof

/-- `T_SETTLE_RESET`, the reset value of `TSETTLE`: OPEN, 0 to 65535 (R5, R17; D4; log entry 7). -/
opaque Config.tSettleReset : Delay

/-- `BASE / 4`. `BASE` must be a multiple of 4 (R41), so it is given by its word number; OPEN (D1). -/
opaque Config.baseWord : Nat

/-- `BASE`, the address of the register block in the host's address space (R5, R41). -/
def Config.base : Nat := 4 * Config.baseWord

/-- The bus address of the register at byte offset `off` (R7: `addr = BASE + off`). -/
def Config.addressOf (off : Nat) : Nat := Config.base + off

/-- `F_CLK` in Hz: OPEN (D3). No rule about values depends on it (R5).
DESIGN CHOICE (log entry 8): a rational number stands for the spec's positive real. -/
opaque Config.fClk : Rat

/-- The free values of the port `sda_i` (R13, spec/93 F1): what the environment presents at the `n`-th sample that no
listed level (`SdaInput.upcoming`) covers. Nothing constrains it. -/
opaque Config.sdaLevel : Nat → Level

end Sys2Proof
end

