-- ==== Sys2Proof/Machine/State.lean ====
section
/-! DEFINITION. The state (spec/10_state.md): the fourteen registers of R10, the line-event history HIST, and, as plain data,
what the two other agents do (R6): the host's and the environment's next actions, the level of `rst`, the levels of `sda_i`,
and the values the host has read back. -/

namespace Sys2Proof.Machine

/-- A line event of `HIST` (R30). -/
inductive LineEvent where
  /-- `EvSC(l)`: the clock output was set to `l`. -/
  | sc (l : Level)
  /-- `EvSD(l)`: the data output was set to `l`, making no condition. -/
  | sd (l : Level)
  /-- `EvSTART`: a start condition (it stands for `EvSD(0)` as well). -/
  | start
  /-- `EvSTOP`: a stop condition (it stands for `EvSD(1)` as well). -/
  | stop
  /-- `EvRD(v)`: the data line was sampled and read as `v`. -/
  | rd (v : Level)
  /-- `EvRESET`: the reset step forced both outputs to 1. -/
  | reset
deriving DecidableEq, Repr

/-- One atomic step of an agent (R101): a tick, a host read, a host write, a change of `rst`; and the two halves of the host's
polling idiom (R160) as the command-level view of R112 allows.
DESIGN CHOICE (log entry 1): the interleaving of the agents' steps is a list held in `State.agenda`. -/
inductive Action where
  /-- One active edge of `clk` (R103). -/
  | tick
  /-- `HostRead(off)`, an access of `bytes` bytes (R42). -/
  | read (off bytes : Nat)
  /-- `HostWrite(off, v)`, an access of `bytes` bytes (R43). -/
  | write (off bytes : Nat) (v : RegWord)
  /-- The environment puts the port `rst` at a level; going to 1 is the reset step (R190). -/
  | rst (level : Level)
  /-- The host polls `STATUS` until `BUSY` reads 0, the clock ticking meanwhile (R160). -/
  | poll
  /-- The command-level view (R112): the host writes `v` to `CMD` and, if the command is accepted, waits for its completion;
  one atomic transition. -/
  | command (v : RegWord)
deriving DecidableEq, Repr

/-- The port `sda_i` (R13): an input, a fresh draw at each read. `upcoming` lists the levels the environment presents at the
next samples; past its end the free value `Config.sdaLevel` is drawn, numbered by `drawn`.
DESIGN CHOICE (log entry 2). -/
structure SdaInput where
  upcoming : List Level
  drawn    : Nat
deriving DecidableEq, Repr

/-- The whole state. Fields up to `hist` are the spec's (R10); the rest are the model's own, for the other agents (R6, R9). -/
structure State where
  /-- `SCL_OUT` (R11). -/
  sclOut  : Level
  /-- `SDA_OUT` (R12), 1 = released. -/
  sdaOut  : Level
  /-- `CMDREG` (R15): the executing command word, or the last accepted one. -/
  cmdReg  : CmdWord
  /-- `BUSY` (R16). -/
  busy    : Bool
  /-- `TSETTLE` (R17): the settle delay in ticks. -/
  tSettle : Delay
  /-- `UPC` (R18): index of the next micro-operation. -/
  upc     : MicroStep
  /-- `SETTLE` (R19): ticks of settle delay still to wait. -/
  settle  : Delay
  /-- `RXSHIFT` (R20): bits received so far. -/
  rxShift : Byte
  /-- `RXDATA` (R21): the last completely received byte. -/
  rxData  : Byte
  /-- `ACKIN` (R22): the last acknowledge bit sampled. -/
  ackIn   : Level
  /-- `SESSION` (R23): a bus session is open. -/
  session : Bool
  /-- `NACKF` (R24), sticky. -/
  nackF   : Bool
  /-- `OVR` (R25), sticky. -/
  ovr     : Bool
  /-- `ILL` (R26), sticky. -/
  ill     : Bool
  /-- `HIST` (R30), oldest event first: ghost state, in no register. -/
  hist    : List LineEvent
  /-- The port `rst` (R14): 1 while reset is applied (R190). -/
  rst     : Level
  /-- The port `sda_i` (R13). -/
  sdaIn   : SdaInput
  /-- What the host and the environment do next (R6, R101), first action first. -/
  agenda  : List Action
  /-- The values the host has read back (R9), each with its register's offset, oldest first: ghost. -/
  reads   : List (Nat × RegWord)
deriving DecidableEq, Repr

/-- Why the machine stops with a fault. The spec gives the block no trap (R170); the one entry is for states no run reaches. -/
inductive Fault where
  /-- Raised by `tick` (and `poll`) where `BUSY = 1` and `CMDREG` holds a reserved opcode: R103 reads `Len` of that opcode,
  which R100 does not give. R33(b) rules the state out. DESIGN CHOICE (log entry 10). Safe: the machine stops where the spec says nothing. -/
  | reservedCommandRunning
deriving DecidableEq, Repr

/-- Why the model refuses a step. -/
inductive Refusal where
  /-- A command with no meaning yet. No arm of `exec` answers with it any more. Safe. -/
  | notModelled (mnemonic : String)
  /-- Raised by a host access that is not 32 bits wide: R52, V7 say a model refuses it. Safe. -/
  | accessWidth (bytes : Nat)
  /-- Raised by a host access at an offset that is no multiple of 4: R52, V7 say a model refuses it. Safe. -/
  | misaligned (off : Nat)
  /-- Raised by a host access beyond the block's 32 bytes: V8 says a model of the block refuses it. Safe. -/
  | outsideBlock (off : Nat)
deriving DecidableEq, Repr

/-- The machine right after reset (R31). `rst` is released, the environment and the host have done nothing yet.
DESIGN CHOICE (log entry 11): the values of the model's own last four fields. -/
def State.reset : State where
  sclOut := true
  sdaOut := true
  cmdReg := 0x000#12
  busy := false
  tSettle := Config.tSettleReset
  upc := 0
  settle := 0
  rxShift := 0x00#8
  rxData := 0x00#8
  ackIn := true
  session := false
  nackF := false
  ovr := false
  ill := false
  hist := []
  rst := false
  sdaIn := ⟨[], 0⟩
  agenda := []
  reads := []

end Sys2Proof.Machine
end

