-- ==== Sys2Proof/Machine/Operands.lean ====
section
/-! DEFINITION. Operands and data: how a byte is taken apart and put together on the wire (R54, R130, R134, R140), the ports
(R14), the free input (R13), and the host's own combination of two bytes (R161). -/

namespace Sys2Proof.Machine

/-- The bit indices of a byte in the order they travel, most-significant first (R54). -/
def bitOrder : List (Fin 8) := [7, 6, 5, 4, 3, 2, 1, 0]

/-- `b[i]` (R130). -/
def byteBit (b : Byte) (i : Fin 8) : Level := b.getLsbD i.val

/-- `r[i] <- v` in an 8-bit register (R134, R140). -/
def putBit (r : Byte) (i : Fin 8) (v : Level) : Byte :=
  (r &&& ~~~(1#8 <<< i.val)) ||| ((BitVec.ofBool v).setWidth 8 <<< i.val)

/-- The bits of a byte in the order they travel (R54). -/
def wireBits (b : Byte) : List Level := bitOrder.map (byteBit b)

/-- Eight levels in the order they were sampled, put together most-significant first (R134, R140). -/
def byteOfSamples (vs : List Level) : Byte :=
  (bitOrder.zip vs).foldl (fun r iv => putBit r iv.1 iv.2) 0x00#8

/-- One fresh draw of `sda_i` (R13): its level and the input after it. -/
def SdaInput.draw : SdaInput → Level × SdaInput
  | ⟨v :: vs, n⟩ => (v, ⟨vs, n⟩)
  | ⟨[], n⟩ => (Config.sdaLevel n, ⟨[], n + 1⟩)

/-- `n` draws in order (R112: one free input bit for each `RD()`). -/
def SdaInput.drawMany : Nat → SdaInput → List Level × SdaInput
  | 0, inp => ([], inp)
  | n + 1, inp =>
    let (v, inp') := inp.draw
    let (vs, inp'') := drawMany n inp'
    (v :: vs, inp'')

/-- The port `scl_o` (R14, R97). -/
def State.sclO (s : State) : Level := s.sclOut

/-- The port `sda_o` (R14, R97). -/
def State.sdaO (s : State) : Level := s.sdaOut

/-- The usual wiring of a line, open-drain with pull-up: the AND of what every device drives (R56). Not built into the
controller: an environment model may constrain `sda_i` with it. -/
def wiredAnd (controller slave : Level) : Level := controller && slave

/-- `(high << 8) | low` on the host (R161). -/
def combineBytes (high low : Byte) : BitVec 16 := (high.setWidth 16 <<< 8) ||| low.setWidth 16

/-- The axis value: the combined word read as a signed 16-bit number (R161). -/
def axisValue (high low : Byte) : Int := (combineBytes high low).toInt

end Sys2Proof.Machine
end

