-- ==== Sys2Proof/Machine/Flags.lean ====
section
/-! DEFINITION. Flags: the STATUS word (R27, R46), start and stop conditions (R95), and the sticky event flags (R171, R47). -/

namespace Sys2Proof.Machine

/-- The event recorded by `SD(l)`, and with it the condition made, if any (R92, R95): start is data 1 to 0 with the clock at 1,
stop is data 0 to 1 with the clock at 1. `scl` and `sda` are the outputs before the micro-operation. -/
def sdEvent (scl sda l : Level) : LineEvent :=
  if scl && sda && !l then .start
  else if scl && !sda && l then .stop
  else .sd l

/-- `SESSION` after a line event of `SD` (R23, R92). -/
def sessionAfter (e : LineEvent) (session : Bool) : Bool :=
  match e with
  | .start => true
  | .stop => false
  | .sc _ | .sd _ | .rd _ | .reset => session

/-- `ILL ++ OVR ++ NACKF ++ 0 ++ ACKIN ++ SESSION ++ BUSY`, zero-extended (R46). -/
def statusWord (s : State) : RegWord :=
  (BitVec.ofBool s.ill ++ BitVec.ofBool s.ovr ++ BitVec.ofBool s.nackF ++ 0#1 ++ BitVec.ofBool s.ackIn ++
    BitVec.ofBool s.session ++ BitVec.ofBool s.busy).setWidth 32

/-- `sda_i ++ SDA_OUT ++ SCL_OUT`, zero-extended (R50). -/
def linesWord (sdaIn : Level) (s : State) : RegWord :=
  (BitVec.ofBool sdaIn ++ BitVec.ofBool s.sdaOut ++ BitVec.ofBool s.sclOut).setWidth 32

/-- The overrun event (R173): a write refused because `BUSY = 1`. Only `OVR` changes. -/
def raiseOvr (s : State) : State := { s with ovr := true }

/-- The illegal-command event (R174): a reserved opcode written while idle. Only `ILL` changes. -/
def raiseIll (s : State) : State := { s with ill := true }

/-- What the sampled acknowledge does to the flags (R104, R172): `ACKIN <- v; if v = 1 then NACKF <- 1`. -/
def recordAck (v : Level) (s : State) : State := { s with ackIn := v, nackF := s.nackF || v }

/-- A write of `STATUS` (R47): each of bits 4, 5, 6 that is 1 clears its sticky flag. -/
def clearSticky (v : RegWord) (s : State) : State :=
  { s with
    nackF := s.nackF && !v.getLsbD 4
    ovr := s.ovr && !v.getLsbD 5
    ill := s.ill && !v.getLsbD 6 }

end Sys2Proof.Machine
end

