-- ==== Sys2Proof/Machine/Ops.lean ====
section
/-! DEFINITION. The shared operations: the three micro-operations of the line driver (R91 to R93), acceptance (R102),
completion (R105), a whole command as one transition (R112), and the reset step (R190).
The block takes no exception and returns from none (R170, R176): the events of R171 only set flags, in Flags.lean. -/

namespace Sys2Proof.Machine

/-- `SC(l)` (R91). -/
def setClock (l : Level) (s : State) : State :=
  { s with sclOut := l, hist := s.hist ++ [.sc l] }

/-- `SD(l)` (R92). The conditions read the outputs as they were before. -/
def setData (l : Level) (s : State) : State :=
  { s with
    sdaOut := l
    session := sessionAfter (sdEvent s.sclOut s.sdaOut l) s.session
    hist := s.hist ++ [sdEvent s.sclOut s.sdaOut l] }

/-- Storing a sample where the command says (R104). -/
def storeSample (dest : RdDest) (v : Level) (s : State) : State :=
  match dest with
  | .ackIn => recordAck v s
  | .rxShift i => { s with rxShift := putBit s.rxShift i v }

/-- `RD()` (R93) and the store of its result (R104), within one step. -/
def readData (dest : RdDest) (s : State) : State :=
  storeSample dest s.sdaIn.draw.1
    { s with sdaIn := s.sdaIn.draw.2, hist := s.hist ++ [.rd s.sdaIn.draw.1] }

/-- Performing a micro-operation (R104). -/
def perform (u : Uop) (s : State) : State :=
  match u with
  | .sc l => setClock l s
  | .sd l => setData l s
  | .rd dest => readData dest s

/-- Micro-operations in order. -/
def performAll (us : List Uop) (s : State) : State := us.foldl (fun t u => perform u t) s

/-- The second branch of `Accept` (R102): the command starts. No micro-operation is performed. -/
def beginCommand (w : CmdWord) (s : State) : State :=
  { s with
    cmdReg := w
    busy := true
    upc := 0
    settle := 0
    rxShift := if opcodeField w = 0x5#4 then 0x00#8 else s.rxShift }

/-- `Accept(w)` (R102): the busy test comes first. -/
def accept (w : CmdWord) (s : State) : State :=
  if s.busy then raiseOvr s
  else match decode w with
    | .command _ => beginCommand w s
    | .reserved _ => raiseIll s

/-- `Complete` (R105). -/
def complete (s : State) : State :=
  { s with
    rxData := if opcodeField s.cmdReg = 0x5#4 then s.rxShift else s.rxData
    busy := false
    upc := 0 }

/-- A command as one transition (R112): it is written to `CMD`; if it is accepted, its micro-operations are performed in order
and it completes. While `rst` is 1 the write has no effect (R190); while `BUSY = 1` it is refused with `OVR` (R102). -/
def runCommand (i : Instr) (program : List Uop) (s : State) : Host.Outcome State Fault Refusal :=
  if s.rst then .next s
  else if s.busy then .next (raiseOvr s)
  else .next (complete (performAll program (beginCommand (encode i) s)))

/-- The reset step (R190, R194): every state element takes its reset value and `EvRESET` is appended to `HIST`, which is not
cleared. What belongs to the other agents stays. -/
def resetStep (s : State) : State :=
  { State.reset with
    hist := s.hist ++ [.reset]
    rst := s.rst
    sdaIn := s.sdaIn
    agenda := s.agenda
    reads := s.reads }

/-- The environment puts `rst` at a level (R190): a rise is the reset step; as long as it stays 1 nothing more happens.
DESIGN CHOICE (log entry 5): the level is held in `State.rst`, and its rise is the reset step. -/
def setRst (l : Level) (s : State) : State :=
  if l && !s.rst then { resetStep s with rst := true } else { s with rst := l }

end Sys2Proof.Machine
end

