-- ==== Sys2Proof/Machine/ByteTransfer.lean ====
section
/-! DEFINITION. The byte transfer commands SENDB, SENDBA, RECVB, SENDACK (spec/43_byte_transfer.md). -/

namespace Sys2Proof.Machine

/-- A clock pulse (R130): `SC(1)` then `SC(0)`. -/
def clockPulse : List Uop := [.sc true, .sc false]

/-- One bit sent by the master (R130): the data line is driven to it, then a clock pulse. -/
def sendBit (l : Level) : List Uop := .sd l :: clockPulse

/-- The 24 micro-operations both send commands begin with (R130): the eight bits, most-significant first. -/
def shiftOut (b : Byte) : List Uop := bitOrder.flatMap (fun i => sendBit (byteBit b i))

/-- The micro-operations of `SENDB b` (R132): the data line is not released for the ninth pulse. -/
def sendbProgram (b : Byte) : List Uop := shiftOut b ++ clockPulse

/-- The micro-operations of `SENDBA b` (R133): release, clock high, sample, clock low. -/
def sendbaProgram (b : Byte) : List Uop :=
  shiftOut b ++ [.sd true, .sc true, .rd .ackIn, .sc false]

/-- One bit received (R134): it is sampled while the clock is high. -/
def receiveBit (i : Fin 8) : List Uop := [.sc true, .rd (.rxShift i), .sc false]

/-- The micro-operations of `RECVB` (R134): the data line is released once, then eight bits, most-significant first. -/
def recvbProgram : List Uop := .sd true :: bitOrder.flatMap receiveBit

/-- The micro-operations of `SENDACK a` (R135): one bit, sent as any other. -/
def sendackProgram (a : Level) : List Uop := sendBit a

/-- `SENDB b` (R132). -/
def execSendb (b : Byte) (s : State) : Host.Outcome State Fault Refusal :=
  runCommand (.sendb b) (sendbProgram b) s

/-- `SENDBA b` (R133). -/
def execSendba (b : Byte) (s : State) : Host.Outcome State Fault Refusal :=
  runCommand (.sendba b) (sendbaProgram b) s

/-- `RECVB` (R134). -/
def execRecvb (data : Byte) (s : State) : Host.Outcome State Fault Refusal :=
  runCommand (.recvb data) recvbProgram s

/-- `SENDACK a` (R135). -/
def execSendack (a : Level) (dataHi : BitVec 7) (s : State) : Host.Outcome State Fault Refusal :=
  runCommand (.sendack a dataHi) (sendackProgram a) s

end Sys2Proof.Machine
end

