-- ==== Sys2Proof/Machine/Framing.lean ====
section
/-! DEFINITION. The framing commands START and STOP (spec/42_framing.md). -/

namespace Sys2Proof.Machine

/-- The micro-operations of `START` (R120): data high, clock high, data low while clock high, clock low. -/
def startProgram : List Uop := [.sd true, .sc true, .sd false, .sc false]

/-- The micro-operations of `STOP` (R121): data low, clock high, data high while clock high. -/
def stopProgram : List Uop := [.sd false, .sc true, .sd true]

/-- `START` (R120), also the repeated start (R122). -/
def execStart (data : Byte) (s : State) : Host.Outcome State Fault Refusal :=
  runCommand (.start data) startProgram s

/-- `STOP` (R121). -/
def execStop (data : Byte) (s : State) : Host.Outcome State Fault Refusal :=
  runCommand (.stop data) stopProgram s

end Sys2Proof.Machine
end

