-- ==== Sys2Proof/Machine/Dispatch.lean ====
section
/-! DEFINITION. One arm per command: the command-level view of R112. -/

namespace Sys2Proof.Machine

def exec (i : Instr) (s : State) : Host.Outcome State Fault Refusal :=
  match i with
  | .start data => Sys2Proof.Machine.execStart data s
  | .stop data => Sys2Proof.Machine.execStop data s
  | .sendb b => Sys2Proof.Machine.execSendb b s
  | .sendba b => Sys2Proof.Machine.execSendba b s
  | .recvb data => Sys2Proof.Machine.execRecvb data s
  | .sendack a dataHi => Sys2Proof.Machine.execSendack a dataHi s

end Sys2Proof.Machine
end

