-- ==== Sys2Proof/Machine/HostAccess.lean ====
section
/-! DEFINITION. The host register space (spec/20_memory.md): the five registers, read and written as whole 32-bit words.
The block has no other memory (R40). -/

namespace Sys2Proof.Machine

/-- The value of `HostRead(off)` (R41, R45, R46, R48 to R51), `sda` being the level presented on `sda_i` (it shows in `LINES`
alone). An offset without a register reads 0. -/
def readValue (off : Nat) (sda : Level) (s : State) : RegWord :=
  match off with
  | 0x00 => s.cmdReg.setWidth 32
  | 0x04 => statusWord s
  | 0x08 => s.rxData.setWidth 32
  | 0x0C => s.tSettle.setWidth 32
  | 0x10 => linesWord sda s
  | _ => 0

/-- `HostRead(off)` (R42): no state element of the controller changes. A read of `LINES` draws `sda_i` afresh (R50). -/
def hostRead (off : Nat) (s : State) : State :=
  if off = 0x10 then
    { s with
      sdaIn := s.sdaIn.draw.2
      reads := s.reads ++ [(off, readValue off s.sdaIn.draw.1 s)] }
  else { s with reads := s.reads ++ [(off, readValue off false s)] }

/-- A write of `TSETTLE` (R49): refused with `OVR` while `BUSY = 1`. -/
def writeTSettle (v : RegWord) (s : State) : State :=
  if s.busy then raiseOvr s else { s with tSettle := v.extractLsb' 0 16 }

/-- `HostWrite(off, v)` (R43, R44, R47 to R51). While `rst` is 1 it has no effect (R190). -/
def hostWrite (off : Nat) (v : RegWord) (s : State) : State :=
  if s.rst then s
  else match off with
    | 0x00 => accept (cmdOfWrite v) s
    | 0x04 => clearSticky v s
    | 0x0C => writeTSettle v s
    | _ => s

/-- Whether a model admits a host access at all (R52, V7, V8): 32 bits wide, aligned, inside the block.
DESIGN CHOICE (log entry 6). -/
def accessRefusal (off bytes : Nat) : Option Refusal :=
  if !widthOk bytes then some (.accessWidth bytes)
  else if !alignedOk off then some (.misaligned off)
  else if !insideBlock off then some (.outsideBlock off)
  else none

end Sys2Proof.Machine
end

