-- ==== Sys2Proof/Machine/Sequencer.lean ====
section
/-! DEFINITION. The timing state machine at tick level (spec/41_timing_fsm.md) and the figures that follow from it. -/

namespace Sys2Proof.Machine

/-- The micro-program of a command (R100): `Uop(op, d, k)` is its entry `k`. It depends on the opcode and the operand alone. -/
def microProgram : Instr → List Uop
  | .start _ => startProgram
  | .stop _ => stopProgram
  | .sendb b => sendbProgram b
  | .sendba b => sendbaProgram b
  | .recvb _ => recvbProgram
  | .sendack a _ => sendackProgram a

/-- `Len(op)` (R100). -/
def Instr.len (i : Instr) : Nat := (microProgram i).length

/-- The third and fourth branch of `Tick` (R103) for the executing command `i`: perform micro-step `UPC`, or complete. -/
def microStep (i : Instr) (s : State) : State :=
  match (microProgram i)[s.upc.toNat]? with
  | some u => { perform u s with upc := s.upc + 1, settle := s.tSettle }
  | none => complete s

/-- `Tick` (R103). While `rst` is 1 ticks change nothing (R190). -/
def tick (s : State) : Host.Outcome State Fault Refusal :=
  if s.rst then .next s
  else if !s.busy then .next s
  else if s.settle ≠ 0 then .next { s with settle := s.settle - 1 }
  else match decode s.cmdReg with
    | .command i => .next (microStep i s)
    | .reserved _ => .fault .reservedCommandRunning

/-- The four phases of R109: names for conditions on the state. -/
inductive Phase where
  | idle
  | exec
  | wait
  | done
deriving DecidableEq, Repr

/-- The phase a state is in (R109); none where `BUSY = 1` and `CMDREG` holds a reserved opcode. -/
def State.phase (s : State) : Option Phase :=
  if !s.busy then some .idle
  else if s.settle ≠ 0 then some .wait
  else match decode s.cmdReg with
    | .command i => some (if s.upc.toNat < Instr.len i then .exec else .done)
    | .reserved _ => none

/-- `Ticks(op) = Len(op) * (TSETTLE + 1) + 1` (R108). -/
def ticksOf (i : Instr) (t : Delay) : Nat := Instr.len i * (t.toNat + 1) + 1

/-- The tick, counted from acceptance, at which micro-step `k` is performed (R107). -/
def tickOfStep (k : Nat) (t : Delay) : Nat := 1 + k * (t.toNat + 1)

/-- `P = (TSETTLE + 1) / F_CLK`, the period of one micro-operation in seconds, for a clock of `f` Hz (R213). -/
def microPeriod (f : Rat) (t : Delay) : Rat := (t.toNat + 1 : Nat) / f

/-- The bit rate inside a byte, in bits per second (R213). -/
def bitRate (f : Rat) (t : Delay) : Rat := f / (3 * (t.toNat + 1) : Nat)

end Sys2Proof.Machine
end

