-- ==== Sys2Proof/Machine/Actions.lean ====
section
/-! DEFINITION. What one action of an agent does (R101), and how a word of the opcode table is placed so that the next step
runs it. -/

namespace Sys2Proof.Machine

/-- A host access, once a model admits it (R52). -/
def admitted (off bytes : Nat) (after : State) : Host.Outcome State Fault Refusal :=
  match accessRefusal off bytes with
  | some r => .refused r
  | none => .next after

/-- The host polls `STATUS` until `BUSY` reads 0 (R160): while it reads 1 a tick passes and the host polls again.
DESIGN CHOICE (log entry 3): these reads are not entered in `State.reads`. -/
def pollStep (s : State) : Host.Outcome State Fault Refusal :=
  if s.busy then tick { s with agenda := .poll :: s.agenda } else .next s

/-- The host writes `v` to `CMD` and an accepted command runs to its completion (R112); a reserved opcode does what a write of
it does (R75). DESIGN CHOICE (log entry 3). -/
def commandStep (v : RegWord) (s : State) : Host.Outcome State Fault Refusal :=
  match decode (cmdOfWrite v) with
  | .command i => exec i s
  | .reserved _ => .next (hostWrite 0x00 v s)

/-- One action, on the state whose agenda holds what comes after it. -/
def act (a : Action) (s : State) : Host.Outcome State Fault Refusal :=
  match a with
  | .tick => tick s
  | .read off bytes => admitted off bytes (hostRead off s)
  | .write off bytes v => admitted off bytes (hostWrite off v s)
  | .rst l => .next (setRst l s)
  | .poll => pollStep s
  | .command v => commandStep v s

/-- The action that issues the word `w` of `nbits` bits, every higher bit of the write zero. -/
def fetchAction (nbits w : Nat) : Action := .command (BitVec.ofNat 32 (w % 2 ^ nbits))

end Sys2Proof.Machine
end

