-- ==== Sys2Proof/Machine/Step.lean ====
section
/-! DEFINITION. One step of the whole: the next action of the agenda; where none is listed, the clock ticks (R101). -/

namespace Sys2Proof.Machine

def step (s : State) : Host.Outcome State Fault Refusal :=
  match s.agenda with
  | [] => tick s
  | a :: rest => act a { s with agenda := rest }

/-- The state in which the host issues the word `w` next. Commands are not fetched (R61): a command reaches the controller by
the host's write of `CMD`, so the word is put at the head of what the agents do next. DESIGN CHOICE (log entry 4). -/
def State.withFetchWord (s : State) (nbits w : Nat) : State :=
  { s with agenda := fetchAction nbits w :: s.agenda }

end Sys2Proof.Machine
end

