-- ==== Sys2Proof/Machine/Environment.lean ====
section
/-! DEFINITION. The echo slave `ES(A)` of spec/95_test_vectors.md section 0, at command level: a model of the environment for
claims, no part of the controller. DEDUCED (log entry 15): where the definition says nothing, the slave stays as it is. -/

namespace Sys2Proof.Machine

/-- The phase of the echo slave. -/
inductive SlavePhase where
  | idle
  | addr
  | reg
  | data
  | tx
deriving DecidableEq, Repr

/-- The echo slave: its 7-bit address, 256-byte memory, pointer, whether it is selected, and its phase. -/
structure EchoSlave where
  address : BitVec 7
  mem     : Vector Byte 256
  ptr     : Byte
  sel     : Bool
  phase   : SlavePhase
deriving DecidableEq, Repr

/-- The byte at an address of the slave's memory. -/
def EchoSlave.read (sl : EchoSlave) (p : Byte) : Byte := sl.mem.get p.toFin

/-- The slave after a byte is stored at its pointer, which advances. -/
def EchoSlave.store (b : Byte) (sl : EchoSlave) : EchoSlave :=
  { sl with mem := sl.mem.set sl.ptr.toNat b sl.ptr.isLt, ptr := sl.ptr + 1 }

/-- The slave at the start: memory all 0x00, not selected. -/
def EchoSlave.initial (a : BitVec 7) : EchoSlave := ⟨a, Vector.replicate 256 0x00#8, 0x00#8, false, .idle⟩

/-- What the slave does with an address byte: selected and acknowledging if it is its own. -/
def EchoSlave.onAddress (b : Byte) (sl : EchoSlave) : Level × EchoSlave :=
  if b.extractLsb' 1 7 = sl.address then
    (false, { sl with sel := true, phase := if b.getLsbD 0 then .tx else .reg })
  else (true, { sl with sel := false, phase := .idle })

/-- What the slave does with a byte sent by `SENDBA`: the acknowledge it presents. -/
def EchoSlave.onSendba (b : Byte) (sl : EchoSlave) : Level × EchoSlave :=
  match sl.phase with
  | .addr => sl.onAddress b
  | .reg => if sl.sel then (false, { sl with ptr := b, phase := .data }) else (true, sl)
  | .data =>
    if sl.sel then (false, sl.store b) else (true, sl)
  | .idle | .tx => (true, sl)

/-- The levels the slave presents at the samples of a command, and the slave after it. -/
def EchoSlave.respond (i : Instr) (sl : EchoSlave) : List Level × EchoSlave :=
  match i with
  | .start _ => ([], { sl with phase := .addr })
  | .stop _ => ([], { sl with sel := false, phase := .idle })
  | .sendb b => ([], if sl.phase = .addr then (sl.onAddress b).2 else sl)
  | .sendba b => ([(sl.onSendba b).1], (sl.onSendba b).2)
  | .recvb _ =>
    if sl.sel && sl.phase == .tx then (wireBits (sl.read sl.ptr), { sl with ptr := sl.ptr + 1 })
    else (List.replicate 8 true, sl)
  | .sendack _ _ => ([], sl)

/-- Commands issued one after the other to a bus with the echo slave on it; nothing where one does not complete. -/
def execAgainst : List Instr → State → EchoSlave → Option (State × EchoSlave)
  | [], s, sl => some (s, sl)
  | i :: is, s, sl =>
    match exec i { s with sdaIn := ⟨(sl.respond i).1, s.sdaIn.drawn⟩ } with
    | .next t => execAgainst is t (sl.respond i).2
    | .fault _ | .refused _ => none

end Sys2Proof.Machine
end

