-- ==== Sys2Proof/Machine/HostPrograms.lean ====
section
/-! DEFINITION. The documented use of the block (spec/50_transactions.md): the register protocol's sequences as commands, and
the host idiom for one command. The controller knows nothing of them. -/

namespace Sys2Proof.Machine

/-- `writeRegister(addr, value)` to slave `a` (R156). -/
def writeRegister (a : BitVec 7) (addr value : Byte) : List Instr :=
  [.start 0, .sendba (addressByte a .write), .sendba addr, .sendba value, .stop 0]

/-- `readRegister(addr)` from slave `a` (R157), with a repeated start. -/
def readRegister (a : BitVec 7) (addr : Byte) : List Instr :=
  [.start 0, .sendba (addressByte a .write), .sendba addr, .start 0, .sendba (addressByte a .read),
   .recvb 0, .sendack true 0, .stop 0]

/-- `readMultiAxis()` (R158): one independent register read for each of the listed addresses (the source lists twelve). -/
def readMultiAxis (a : BitVec 7) (addrs : List Byte) : List Instr := addrs.flatMap (readRegister a)

/-- The bytes of a burst read in one session (R162): `RECVB ; SENDACK 0` but for the last, which is answered `SENDACK 1`. -/
def burstPhases : Nat → List Instr
  | 0 => []
  | 1 => [.recvb 0, .sendack true 0]
  | n + 2 => .recvb 0 :: .sendack false 0 :: burstPhases (n + 1)

/-- The write of `CMD` that issues a command: the word in bits 11:0 (R44). -/
def cmdWrite (i : Instr) : RegWord := (encode i).setWidth 32

/-- The host idiom of R160 as single steps: poll until `BUSY = 0`, write `CMD`, poll again. -/
def issueIdiom (i : Instr) : List Action := [.poll, .write 0x00 4 (cmdWrite i), .poll]

/-- The micro-operations of a command sequence, all told. -/
def microOpCount (cs : List Instr) : Nat := (cs.map Instr.len).sum

/-- The controller time of a command sequence in ticks (R156, R157): the sum of its commands' `Ticks`. -/
def sequenceTicks (cs : List Instr) (t : Delay) : Nat := (cs.map (ticksOf · t)).sum

end Sys2Proof.Machine
end

