-- ==== Sys2Proof/Safety.lean ====
section
/-! DEFINITION. The terms claims are stated in (spec/00_scope.md R9, spec/10_state.md R33): the register tuple, the invariant,
what the line history says of the wires, and runs of command sequences. -/

namespace Sys2Proof.Machine

/-- The registers of R10, without `HIST`: everything the hardware itself keeps. -/
structure Registers where
  sclOut  : Level
  sdaOut  : Level
  cmdReg  : CmdWord
  busy    : Bool
  tSettle : Delay
  upc     : MicroStep
  settle  : Delay
  rxShift : Byte
  rxData  : Byte
  ackIn   : Level
  session : Bool
  nackF   : Bool
  ovr     : Bool
  ill     : Bool
deriving DecidableEq, Repr

/-- The hardware's registers in a state. -/
def State.registers (s : State) : Registers :=
  ⟨s.sclOut, s.sdaOut, s.cmdReg, s.busy, s.tSettle, s.upc, s.settle, s.rxShift, s.rxData, s.ackIn, s.session, s.nackF,
    s.ovr, s.ill⟩

/-- The reset values (R10, R31), written out. -/
def Registers.reset : Registers :=
  ⟨true, true, 0x000#12, false, Config.tSettleReset, 0, 0, 0x00#8, 0x00#8, true, false, false, false, false⟩

/-- Nothing keeps a command from being accepted: `rst` is 0 and `BUSY = 0` (R102, R154, R190). -/
def State.Ready (s : State) : Prop := s.rst = false ∧ s.busy = false

/-- The idle state of R194: no command, no session, lines idle high. -/
def State.Idle (s : State) : Prop := s.Ready ∧ s.session = false ∧ s.sclOut = true ∧ s.sdaOut = true

/-- The invariants of R33. DEDUCED (log entry 9): (d) is said through `HIST`, whose sample events do not name their command, so
it asks for an earlier sample of 1. `heldReset` is R190's "host reads return reset values" while `rst` is 1. -/
structure State.Inv (s : State) : Prop where
  idleCounters : s.busy = false → s.upc = 0 ∧ s.settle = 0
  busyCommand : s.busy = true → ∃ i, decode s.cmdReg = .command i ∧ s.upc.toNat ≤ Instr.len i
  settleBound : s.settle ≤ s.tSettle
  nackSampled : s.nackF = true → LineEvent.rd true ∈ s.hist
  heldReset : s.rst = true → s.registers = Registers.reset

/-- What the slave can tell from the events so far: the two driven levels and whether a session is open. -/
structure WireView where
  scl     : Level
  sda     : Level
  session : Bool
deriving DecidableEq, Repr

/-- The view after one more event (R30). -/
def WireView.after (v : WireView) : LineEvent → WireView
  | .sc l => { v with scl := l }
  | .sd l => { v with sda := l }
  | .start => { v with sda := false, session := true }
  | .stop => { v with sda := true, session := false }
  | .rd _ => v
  | .reset => ⟨true, true, false⟩

/-- The view a history leaves, from the reset state on (R31). -/
def replay (h : List LineEvent) : WireView := h.foldl WireView.after ⟨true, true, false⟩

/-- The view of a state's own registers. -/
def State.wires (s : State) : WireView := ⟨s.sclOut, s.sdaOut, s.session⟩

/-- An event is recorded truly at a view (R30, R95): `EvSTART` only where data falls with the clock high, `EvSTOP` only where
it rises with the clock high, `EvSD` only where neither happens. -/
def WireView.admits (v : WireView) : LineEvent → Bool
  | .start => v.scl && v.sda
  | .stop => v.scl && !v.sda
  | .sd l => !(v.scl && (v.sda != l))
  | .sc _ | .rd _ | .reset => true

/-- Every event of a history is recorded truly, from a view on. -/
def trueFrom (v : WireView) : List LineEvent → Bool
  | [] => true
  | e :: es => v.admits e && trueFrom (v.after e) es

/-- The history explains the lines and the session, and each of its events is recorded truly (R30, R95). -/
def State.HistoryTrue (s : State) : Prop :=
  replay s.hist = s.wires ∧ trueFrom ⟨true, true, false⟩ s.hist = true

/-- Events with the sampled value forgotten: what a command does to the lines, whatever it read. -/
def LineEvent.withoutSample : LineEvent → LineEvent
  | .rd _ => .rd false
  | e => e

/-- The events of one sent bit with the clock low before it (R130). -/
def sentBitEvents (l : Level) : List LineEvent := [.sd l, .sc true, .sc false]

/-- The events of one received bit (R134). -/
def receivedBitEvents (v : Level) : List LineEvent := [.sc true, .rd v, .sc false]

/-- The level of the data output at each `SC(1)` of a history, read off from a view on (R137). -/
def dataAtClockHigh (v : WireView) : List LineEvent → List Level
  | [] => []
  | e :: es => (if e = .sc true then [v.sda] else []) ++ dataAtClockHigh (v.after e) es

/-- Commands issued one after the other, each waited for (R112, R160). -/
def execAll : List Instr → State → Host.Outcome State Fault Refusal
  | [], s => .next s
  | i :: is, s =>
    match exec i s with
    | .next t => execAll is t
    | .fault f => .fault f
    | .refused r => .refused r

/-- Steps one after the other, stopping at the first fault or refusal: the host's run of `core`, for this machine. -/
def run : Nat → State → Host.Outcome State Fault Refusal
  | 0, s => .next s
  | n + 1, s =>
    match step s with
    | .next t => run n t
    | .fault f => .fault f
    | .refused r => .refused r

/-- The commands of the byte family, and `START`: what may stand between the first `START` and the `STOP` (R124). -/
def isInner : Instr → Bool
  | .stop _ => false
  | .start _ | .sendb _ | .sendba _ | .recvb _ | .sendack _ _ => true

/-- The byte family (spec/43_byte_transfer.md). -/
def isByteCommand : Instr → Bool
  | .start _ | .stop _ => false
  | .sendb _ | .sendba _ | .recvb _ | .sendack _ _ => true

end Sys2Proof.Machine
end

