-- ==== Sys2Proof/Certificates/Slice0/Obligations.lean ====
section
/-! DEFINITION. The statements for the provers. Each docstring names the rules of spec/ it formalises. `s.Ready` says that `rst`
is 0 and `BUSY` is 0, which is all the spec asks for a command to be accepted (R102, R154). -/

section
open Sys2Proof Sys2Proof.Machine

/-! ### Reset -/

/-- R31: every state element after reset. -/
def Obligations.ResetGivesEveryElementItsValue : Prop :=
  State.reset.sclOut = true ∧ State.reset.sdaOut = true ∧ State.reset.cmdReg = 0x000#12 ∧ State.reset.busy = false ∧
  State.reset.tSettle = Config.tSettleReset ∧ State.reset.upc = 0 ∧ State.reset.settle = 0 ∧
  State.reset.rxShift = 0x00#8 ∧ State.reset.rxData = 0x00#8 ∧ State.reset.ackIn = true ∧ State.reset.session = false ∧
  State.reset.nackF = false ∧ State.reset.ovr = false ∧ State.reset.ill = false ∧ State.reset.hist = []

/-- R190, R192, R194: the reset step from any state, in mid-command too; it records `EvRESET`, never `EvSTOP`, and leaves what
belongs to the other agents. That `rst` is a level in State is the model's choice (log entry 5). -/
def Obligations.ResetStepFromAnyState : Prop :=
  ∀ s : State, s.rst = false → ∃ t, act (.rst true) s = .next t ∧ t.registers = Registers.reset ∧
    t.hist = s.hist ++ [.reset] ∧ t.rst = true ∧ t.sdaIn = s.sdaIn ∧ t.agenda = s.agenda ∧ t.reads = s.reads

/-- R190: while `rst` stays 1 (the registers then hold their reset values), host writes have no effect, host reads return reset
values, ticks change nothing, a command is not accepted and no second reset step happens; releasing `rst` changes nothing
else. That a command issued meanwhile has no effect is the model's reading (log entry 5). -/
def Obligations.HeldResetFreezesTheBlock : Prop :=
  ∀ s : State, s.rst = true → s.registers = Registers.reset →
    tick s = .next s ∧ (∀ off v, hostWrite off v s = s) ∧
    (∀ off sda, readValue off sda s = readValue off sda State.reset) ∧
    (∀ i, exec i s = .next s) ∧ act (.rst true) s = .next s ∧ act (.rst false) s = .next { s with rst := false }

/-- R190, last part: there is no other reset. Only `rst` going to 1 records `EvRESET`. The clause `s.rst = false`, that `rst` held
at 1 is no second reset step, is the model's (log entry 5). -/
def Obligations.OnlyRstResets : Prop :=
  ∀ s t : State, step s = .next t → t.hist.count .reset ≠ s.hist.count .reset →
    s.rst = false ∧ ∃ rest, s.agenda = .rst true :: rest

/-! ### Encoding -/

/-- R82: `Decode` is total with the listed cases; it is a left inverse of the encoding on every command with every operand, and
the encoding with ignored bits zero has R82's words, and is the word itself exactly for words whose ignored bits are zero.
Commands here keep their ignored bits, so that `encode` of the decoded command is the word on every word: that clause, and the
round trip with those bits kept, are the model's (log entry 16). -/
def Obligations.DecodeOfEncodeIsIdentity : Prop :=
  (∀ i : Instr, decode (encode i) = .command i) ∧
  (∀ w : CmdWord, decode w = match w.toNat / 256 with
    | 1 => .command (.start (w.extractLsb' 0 8))
    | 2 => .command (.stop (w.extractLsb' 0 8))
    | 3 => .command (.sendb (w.extractLsb' 0 8))
    | 4 => .command (.sendba (w.extractLsb' 0 8))
    | 5 => .command (.recvb (w.extractLsb' 0 8))
    | 6 => .command (.sendack (w.getLsbD 0) (w.extractLsb' 1 7))
    | _ => .reserved (w.extractLsb' 8 4)) ∧
  (∀ w i, decode w = .command i → encode i = w) ∧
  (∀ w i, decode w = .command i → (encode i.canonical = w ↔ i.isCanonical = true)) ∧
  (∀ d, encode (Instr.start d).canonical = 0x100#12 ∧ encode (Instr.stop d).canonical = 0x200#12 ∧
    encode (Instr.sendb d).canonical = 0x300#12 ||| d.setWidth 12 ∧
    encode (Instr.sendba d).canonical = 0x400#12 ||| d.setWidth 12 ∧ encode (Instr.recvb d).canonical = 0x500#12) ∧
  (∀ a hi, encode (Instr.sendack a hi).canonical = 0x600#12 ||| (BitVec.ofBool a).setWidth 12)

/-- R72: a word selects a row exactly when its command has the row's mnemonic, no word selects two rows, and the words that
select none are the reserved ones. -/
def Obligations.OpcodeMapSelectsTheCommand : Prop :=
  (∀ w : CmdWord, ∀ r ∈ opcodeMap, r.selects w = true ↔ ∃ i, decode w = .command i ∧ i.mnemonic = r.mnemonic) ∧
  (∀ w : CmdWord, ∀ r ∈ opcodeMap, ∀ r' ∈ opcodeMap, r.selects w = true → r'.selects w = true → r = r') ∧
  (∀ w : CmdWord, (∀ r ∈ opcodeMap, r.selects w = false) ↔ decode w = .reserved (opcodeField w))

/-- R83, the worked encodings (and EN2, EN4, EN6, EN8, EN12, EN14, EN15 of spec/95): words written out bit by bit. -/
def Obligations.WorkedEncodingsDecode : Prop :=
  decode 0b000100000000#12 = .command (.start 0) ∧ decode 0b001000000000#12 = .command (.stop 0) ∧
  decode 0b001110100101#12 = .command (.sendb 0xA5#8) ∧ decode 0b010011010000#12 = .command (.sendba 0xD0#8) ∧
  decode 0b010100000000#12 = .command (.recvb 0) ∧ decode 0b011000000001#12 = .command (.sendack true 0) ∧
  decode 0b011000000000#12 = .command (.sendack false 0) ∧ decode 0x6FE#12 = .command (.sendack false 0x7F#7) ∧
  decode 0x1FF#12 = .command (.start 0xFF#8) ∧ decode 0x000#12 = .reserved 0x0#4 ∧ decode 0x0FF#12 = .reserved 0x0#4 ∧
  decode 0x700#12 = .reserved 0x7#4 ∧ decode 0xFFF#12 = .reserved 0xF#4 ∧
  decode (cmdOfWrite 0xABCDE100#32) = .command (.start 0)

/-- R74: ignored operand bits are stored in `CMDREG`, read back through `CMD`, and have no effect on what a command does; the
assembler writes them as 0. -/
def Obligations.IgnoredBitsAreStoredAndHaveNoEffect : Prop :=
  (∀ (i : Instr) (s : State), s.Ready → ∃ t, exec i s = .next t ∧
    exec i.canonical s = .next { t with cmdReg := encode i.canonical } ∧
    ∀ sda, readValue 0x00 sda t = (encode i).setWidth 32) ∧
  ∀ (l : Asm), ∀ i ∈ l.expand, i.isCanonical = true

/-- R79, R80: the words the assembler writes; an operand out of range is an error. -/
def Obligations.AssemblerWordsAndErrors : Prop :=
  (∀ b : Nat, (Asm.sendb b).assemble = if b ≤ 255 then some [0x300#12 ||| BitVec.ofNat 12 b] else none) ∧
  (∀ b : Nat, (Asm.sendba b).assemble = if b ≤ 255 then some [0x400#12 ||| BitVec.ofNat 12 b] else none) ∧
  (∀ a : Nat, (Asm.sendack a).assemble = if a ≤ 1 then some [0x600#12 ||| BitVec.ofNat 12 a] else none) ∧
  (∀ a7 : Nat, (Asm.sendaddr a7 .write).assemble = if a7 ≤ 127 then some [0x400#12 ||| BitVec.ofNat 12 (a7 * 2)] else none) ∧
  (∀ a7 : Nat, (Asm.sendaddr a7 .read).assemble =
    if a7 ≤ 127 then some [0x400#12 ||| BitVec.ofNat 12 (a7 * 2 + 1)] else none) ∧
  Asm.start.assemble = some [0x100#12] ∧ Asm.rstart.assemble = some [0x100#12] ∧ Asm.stop.assemble = some [0x200#12] ∧
  Asm.recvb.assemble = some [0x500#12] ∧ Asm.ack.assemble = some [0x600#12] ∧ Asm.nack.assemble = some [0x601#12] ∧
  Asm.recvbAck.assemble = some [0x500#12, 0x600#12] ∧ Asm.recvbNack.assemble = some [0x500#12, 0x601#12]

/-! ### The line driver -/

/-- R91: `SC(l)`, whatever the clock level was. -/
def Obligations.SetClockMicroOperation : Prop :=
  ∀ (l : Level) (s : State), perform (.sc l) s = { s with sclOut := l, hist := s.hist ++ [.sc l] }

/-- R92, R95: `SD(l)` by the three cases of the rule, the outputs read as they were before. -/
def Obligations.SetDataMicroOperation : Prop :=
  ∀ (l : Level) (s : State),
    (s.sclOut = true ∧ s.sdaOut = true ∧ l = false →
      perform (.sd l) s = { s with sdaOut := l, session := true, hist := s.hist ++ [.start] }) ∧
    (s.sclOut = true ∧ s.sdaOut = false ∧ l = true →
      perform (.sd l) s = { s with sdaOut := l, session := false, hist := s.hist ++ [.stop] }) ∧
    (s.sclOut = false ∨ s.sdaOut = l →
      perform (.sd l) s = { s with sdaOut := l, hist := s.hist ++ [.sd l] })

/-- R93, R104: `RD()` draws `sda_i` once, records it, and stores it where the command says; nothing else changes.
The form of the draws is the model's choice (log entry 2). -/
def Obligations.ReadDataMicroOperation : Prop :=
  ∀ (s : State) (v : Level) (inp : SdaInput), s.sdaIn.draw = (v, inp) →
    perform (.rd .ackIn) s =
      { s with sdaIn := inp, hist := s.hist ++ [.rd v], ackIn := v, nackF := if v = true then true else s.nackF } ∧
    ∀ i : Fin 8, ∃ r : Byte,
      perform (.rd (.rxShift i)) s = { s with sdaIn := inp, hist := s.hist ++ [.rd v], rxShift := r } ∧
      byteBit r i = v ∧ ∀ j, j ≠ i → byteBit r j = byteBit s.rxShift j

/-- R13: while the environment's list names a level, a sample is that level; two samples are two draws, in order. The
list is the model's choice (log entry 2). -/
def Obligations.SamplesAreFreshDraws : Prop :=
  ∀ (s : State) (v v' : Level) (rest : List Level) (d d' : RdDest), s.sdaIn.upcoming = v :: v' :: rest →
    ∃ t, performAll [.rd d, .rd d'] s = t ∧ t.hist = s.hist ++ [.rd v, .rd v'] ∧ t.sdaIn.upcoming = rest ∧
      t.sdaIn.drawn = s.sdaIn.drawn

/-! ### Acceptance, ticks, completion -/

/-- R102: the three cases of `Accept`, reached by a write of `CMD` (R44). -/
def Obligations.AcceptCases : Prop :=
  ∀ (v : RegWord) (s : State), s.rst = false →
    (s.busy = true → hostWrite 0x00 v s = { s with ovr := true }) ∧
    (s.busy = false → ∀ i, decode (v.extractLsb' 0 12) = .command i →
      hostWrite 0x00 v s = { s with
        cmdReg := v.extractLsb' 0 12, busy := true, upc := 0, settle := 0,
        rxShift := match i with | .recvb _ => 0x00#8 | .start _ | .stop _ | .sendb _ | .sendba _ | .sendack _ _ => s.rxShift }) ∧
    (s.busy = false → ∀ op, decode (v.extractLsb' 0 12) = .reserved op → hostWrite 0x00 v s = { s with ill := true })

/-- R75: the reserved words are those with opcode 0x0 or 0x7 to 0xF. Written to `CMD` while idle they set `ILL` and
nothing else; written while busy they set `OVR` and nothing else. -/
def Obligations.ReservedOpcodeSetsIllOnly : Prop :=
  (∀ w : CmdWord, (w.toNat / 256 = 0 ∨ 7 ≤ w.toNat / 256) ↔ ∃ op, decode w = .reserved op) ∧
  ∀ (v : RegWord) (s : State) (op : BitVec 4), s.rst = false → decode (cmdOfWrite v) = .reserved op →
    (s.busy = false → hostWrite 0x00 v s = { s with ill := true }) ∧
    (s.busy = true → hostWrite 0x00 v s = { s with ovr := true })

/-- R173 and the clause "at acceptance, `OVR` if busy" of each command rule: a command and a write of `TSETTLE` are refused
while `BUSY = 1`; only `OVR` changes. -/
def Obligations.BusyRefusesCommandsAndDelayWrites : Prop :=
  ∀ (s : State), s.rst = false → s.busy = true →
    (∀ i, exec i s = .next { s with ovr := true }) ∧ ∀ v, hostWrite 0x0C v s = { s with ovr := true }

/-- R100: the micro-program of every command, entry by entry, by R100's index formulas. -/
def Obligations.MicroProgramTable : Prop :=
  (∀ d, microProgram (.start d) = [.sd true, .sc true, .sd false, .sc false]) ∧
  (∀ d, microProgram (.stop d) = [.sd false, .sc true, .sd true]) ∧
  (∀ a hi, microProgram (.sendack a hi) = [.sd a, .sc true, .sc false]) ∧
  (∀ b, Instr.len (.sendb b) = 26 ∧ Instr.len (.sendba b) = 28 ∧ Instr.len (.recvb b) = 25) ∧
  (∀ (b : Byte) (k : Nat), k ≤ 23 →
    let u : Uop := if k % 3 = 0 then .sd (b.getLsbD (7 - k / 3)) else if k % 3 = 1 then .sc true else .sc false
    (microProgram (.sendb b))[k]? = some u ∧ (microProgram (.sendba b))[k]? = some u) ∧
  (∀ b : Byte, (microProgram (.sendb b)).drop 24 = [.sc true, .sc false] ∧
    (microProgram (.sendba b)).drop 24 = [.sd true, .sc true, .rd .ackIn, .sc false]) ∧
  (∀ d : Byte, (microProgram (.recvb d))[0]? = some (.sd true)) ∧
  (∀ (d : Byte) (i : Fin 8), (microProgram (.recvb d))[1 + 3 * (7 - i.val)]? = some (.sc true) ∧
    (microProgram (.recvb d))[2 + 3 * (7 - i.val)]? = some (.rd (.rxShift i)) ∧
    (microProgram (.recvb d))[3 + 3 * (7 - i.val)]? = some (.sc false))

/-- R103: the four branches of the tick step. -/
def Obligations.TickCases : Prop :=
  ∀ s : State, s.rst = false →
    (s.busy = false → tick s = .next s) ∧
    (s.busy = true → s.settle ≠ 0 → tick s = .next { s with settle := s.settle - 1 }) ∧
    (s.busy = true → s.settle = 0 → ∀ i, decode s.cmdReg = .command i →
      (∀ h : s.upc.toNat < (microProgram i).length,
        tick s = .next { perform ((microProgram i)[s.upc.toNat]) s with upc := s.upc + 1, settle := s.tSettle }) ∧
      ((microProgram i).length ≤ s.upc.toNat → tick s = .next (complete s)))

/-- R109: in every state that meets the invariant, with `rst` at 0, the next tick does what the state's phase says and leads to
the phases the rule names; acceptance leads from `IDLE` to `EXEC`, and reset to `IDLE`. -/
def Obligations.PhasesOfTheStateMachine : Prop :=
  ∀ s : State, s.Inv → s.rst = false →
    (∃ t, tick s = .next t ∧
      ((s.phase = some .idle ∧ s.busy = false ∧ t = s) ∨
       (s.phase = some .exec ∧ s.busy = true ∧ s.settle = 0 ∧
        (∃ i u, decode s.cmdReg = .command i ∧ (microProgram i)[s.upc.toNat]? = some u ∧
          t = { perform u s with upc := s.upc + 1, settle := s.tSettle }) ∧
        (if s.tSettle = 0 then t.phase = some .exec ∨ t.phase = some .done else t.phase = some .wait)) ∨
       (s.phase = some .wait ∧ s.busy = true ∧ s.settle ≠ 0 ∧ t = { s with settle := s.settle - 1 } ∧
        (t.phase = some .wait ∨ t.phase = some .exec ∨ t.phase = some .done)) ∨
       (s.phase = some .done ∧ s.busy = true ∧ s.settle = 0 ∧
        (∃ i, decode s.cmdReg = .command i ∧ s.upc.toNat = Instr.len i) ∧ t = complete s ∧ t.phase = some .idle))) ∧
    (∀ i, s.phase = some .idle → (hostWrite 0x00 (cmdWrite i) s).phase = some .exec) ∧
    act (.rst true) s = .next (setRst true s) ∧ (setRst true s).phase = some .idle

/-- R105: completion, for every command in the last phase of R109. -/
def Obligations.CompletionEffect : Prop :=
  ∀ (s : State) (i : Instr), s.rst = false → s.busy = true → s.settle = 0 → decode s.cmdReg = .command i →
    s.upc.toNat = Instr.len i → tick s = .next { s with
      rxData := match i with
        | .recvb _ => s.rxShift
        | .start _ | .stop _ | .sendb _ | .sendba _ | .sendack _ _ => s.rxData
      busy := false
      upc := 0 }

/-- R106: while idle, ticks change nothing, for however long. -/
def Obligations.IdleTicksChangeNothing : Prop :=
  ∀ (n : Nat) (s : State), s.busy = false → s.agenda = [] → run n s = .next s

/-- R107: the state after `n` ticks from acceptance, for every `n` before completion. `(n + T) / (T + 1)` micro-steps have been
performed, so that micro-step `k` is performed at tick `1 + k * (T + 1)`; the ticks in between only count `SETTLE` down. -/
def Obligations.TimelineOfACommand : Prop :=
  ∀ (i : Instr) (s : State) (n k : Nat), s.Ready → s.agenda = [] → n < ticksOf i s.tSettle →
    k = (n + s.tSettle.toNat) / (s.tSettle.toNat + 1) →
    run n (hostWrite 0x00 (cmdWrite i) s) =
      .next { performAll ((microProgram i).take k) (hostWrite 0x00 (cmdWrite i) s) with
        upc := BitVec.ofNat 5 k, settle := BitVec.ofNat 16 (k * (s.tSettle.toNat + 1) - n) }

/-- R108: every accepted command completes after exactly `Len * (TSETTLE + 1) + 1` ticks, and is busy until then; with the
figures of the rule's table. -/
def Obligations.EveryCommandCompletesOnTime : Prop :=
  (∀ (i : Instr) (s : State), s.Ready → s.agenda = [] →
    (∃ t, run (ticksOf i s.tSettle) (hostWrite 0x00 (cmdWrite i) s) = .next t ∧ t.busy = false) ∧
    ∀ n < ticksOf i s.tSettle, ∃ t, run n (hostWrite 0x00 (cmdWrite i) s) = .next t ∧ t.busy = true) ∧
  (∀ (d : Byte) (a : Level) (hi : BitVec 7) (T : Delay),
    ticksOf (.start d) T = 4 * (T.toNat + 1) + 1 ∧ ticksOf (.stop d) T = 3 * (T.toNat + 1) + 1 ∧
    ticksOf (.sendb d) T = 26 * (T.toNat + 1) + 1 ∧ ticksOf (.sendba d) T = 28 * (T.toNat + 1) + 1 ∧
    ticksOf (.recvb d) T = 25 * (T.toNat + 1) + 1 ∧ ticksOf (.sendack a hi) T = 3 * (T.toNat + 1) + 1)

/-- R112: the command-level view agrees with the tick-level machine. The write of `CMD` followed by the command's ticks leaves
exactly the state that `exec` gives. -/
def Obligations.CommandLevelViewIsTheTickLevelRun : Prop :=
  ∀ (i : Instr) (s : State), s.Ready → s.agenda = [] →
    run (ticksOf i s.tSettle) (hostWrite 0x00 (cmdWrite i) s) = exec i s

/-- R112, R160: the polling idiom (poll, write `CMD`, poll), step by step, ends where the one atomic transition ends, whatever
the host does next. The actions `poll` and `command` are the model's own (log entry 3). -/
def Obligations.PollingIdiomIsOneTransition : Prop :=
  ∀ (i : Instr) (s : State) (rest : List Action), s.Ready →
    run (ticksOf i s.tSettle + 3) { s with agenda := issueIdiom i ++ rest } =
      run 1 { s with agenda := .command (cmdWrite i) :: rest }

/-- R110: while a command runs, no action of the host changes it. A write changes nothing but the sticky flags, a read nothing
at all, a further command nothing but `OVR`, and a poll lets one tick pass and leaves `CMDREG` and `TSETTLE`; `BUSY` falls only by
the command's own completion or by reset. The actions `poll` and `command` and the agenda are the model's choice (log entries 1
and 3). -/
def Obligations.NoCancellation : Prop :=
  (∀ (s : State) (off : Nat) (v : RegWord), s.busy = true →
    (hostWrite off v s).registers = { s.registers with
      nackF := (hostWrite off v s).nackF, ovr := (hostWrite off v s).ovr, ill := (hostWrite off v s).ill } ∧
    (hostWrite off v s).hist = s.hist) ∧
  (∀ s t : State, s.busy = true → step s = .next t →
    (∀ off bytes rest, s.agenda = .read off bytes :: rest → t.registers = s.registers ∧ t.hist = s.hist) ∧
    (∀ off bytes v rest, s.agenda = .write off bytes v :: rest →
      t.registers = { s.registers with nackF := t.nackF, ovr := t.ovr, ill := t.ill } ∧ t.hist = s.hist) ∧
    (∀ v rest, s.agenda = .command v :: rest → t.registers = { s.registers with ovr := t.ovr } ∧ t.hist = s.hist) ∧
    (∀ rest, s.agenda = .poll :: rest → tick s = .next t ∧ t.cmdReg = s.cmdReg ∧ t.tSettle = s.tSettle)) ∧
  (∀ s t : State, s.busy = true → step s = .next t → t.busy = false →
    (∃ rest, s.agenda = .rst true :: rest) ∨
    ∃ i, decode s.cmdReg = .command i ∧ s.settle = 0 ∧ Instr.len i ≤ s.upc.toNat)

/-! ### Host register access -/

/-- R45, R48: `CMD` and `RXDATA` read zero-extended; a write of `RXDATA` or of `LINES` (R50) does nothing. -/
def Obligations.CmdAndRxDataAccess : Prop :=
  ∀ (s : State) (sda : Level) (v : RegWord),
    (readValue 0x00 sda s).toNat = s.cmdReg.toNat ∧ (readValue 0x08 sda s).toNat = s.rxData.toNat ∧
    hostWrite 0x08 v s = s ∧ hostWrite 0x10 v s = s

/-- R46: `STATUS`, bit by bit. -/
def Obligations.StatusReadBits : Prop :=
  ∀ (s : State) (sda : Level), ∃ w, readValue 0x04 sda s = w ∧
    w.getLsbD 0 = s.busy ∧ w.getLsbD 1 = s.session ∧ w.getLsbD 2 = s.ackIn ∧ w.getLsbD 3 = false ∧
    w.getLsbD 4 = s.nackF ∧ w.getLsbD 5 = s.ovr ∧ w.getLsbD 6 = s.ill ∧ ∀ j, 7 ≤ j → w.getLsbD j = false

/-- R47: a write of `STATUS` clears the sticky flags where a 1 is written, at any time, and changes nothing else. -/
def Obligations.StatusWriteClears : Prop :=
  ∀ (s : State) (v : RegWord), s.rst = false → hostWrite 0x04 v s = { s with
    nackF := if v.getLsbD 4 = true then false else s.nackF
    ovr := if v.getLsbD 5 = true then false else s.ovr
    ill := if v.getLsbD 6 = true then false else s.ill }

/-- R49: `TSETTLE`, read and written. -/
def Obligations.SettleDelayAccess : Prop :=
  ∀ (s : State) (v : RegWord) (sda : Level), (readValue 0x0C sda s).toNat = s.tSettle.toNat ∧ (s.rst = false →
    (s.busy = true → hostWrite 0x0C v s = { s with ovr := true }) ∧
    (s.busy = false → ∃ d : Delay, hostWrite 0x0C v s = { s with tSettle := d } ∧ d.toNat = v.toNat % 65536))

/-- R50: `LINES` shows the outputs and a fresh draw of `sda_i`; it appends nothing to `HIST`, and the two outputs are the ports'
levels (R97). A write of it does nothing. The log `reads` and the form of the draw are the model's own (log entries 2, 18). -/
def Obligations.LinesRead : Prop :=
  ∀ (s : State) (v : Level) (inp : SdaInput), s.sdaIn.draw = (v, inp) → (∃ w : RegWord,
    hostRead 0x10 s = { s with sdaIn := inp, reads := s.reads ++ [(0x10, w)] } ∧
    w.getLsbD 0 = s.sclO ∧ w.getLsbD 1 = s.sdaO ∧ w.getLsbD 2 = v ∧ ∀ j, 3 ≤ j → w.getLsbD j = false) ∧
    ∀ u : RegWord, hostWrite 0x10 u s = s

/-- R51: an offset with no register reads 0 and ignores writes. -/
def Obligations.UnmappedOffsets : Prop :=
  ∀ (off : Nat) (s : State) (sda : Level) (v : RegWord), off % 4 = 0 →
    off ≠ 0x00 → off ≠ 0x04 → off ≠ 0x08 → off ≠ 0x0C → off ≠ 0x10 →
    readValue off sda s = 0 ∧ hostWrite off v s = s

/-- R42: no read changes any state element or the history; the host gets the register's value; but for `LINES` not even the
input is drawn. The log `reads` is the model's own (log entry 18). -/
def Obligations.ReadsChangeNoState : Prop :=
  ∀ (s t : State) (off bytes : Nat) (rest : List Action), s.agenda = .read off bytes :: rest → step s = .next t →
    t.registers = s.registers ∧ t.hist = s.hist ∧ t.rst = s.rst ∧ t.agenda = rest ∧
    (∃ sda, t.reads = s.reads ++ [(off, readValue off sda s)]) ∧ (off ≠ 0x10 → t.sdaIn = s.sdaIn)

/-- R52 and V7, V8 of spec/93: exactly the 32-bit accesses at a multiple of 4 inside the block are steps of the model; every
other access is refused by name (log entry 6). -/
def Obligations.OnlyWordAccessesAreAdmitted : Prop :=
  ∀ (s : State) (off bytes : Nat) (v : RegWord),
    (bytes = 4 ∧ off % 4 = 0 ∧ off < 0x20 →
      act (.read off bytes) s = .next (hostRead off s) ∧ act (.write off bytes v) s = .next (hostWrite off v s)) ∧
    (¬(bytes = 4 ∧ off % 4 = 0 ∧ off < 0x20) →
      ∃ r, act (.read off bytes) s = .refused r ∧ act (.write off bytes v) s = .refused r)

/-! ### The step -/

/-- R61, R101: a step takes the next action; the word at the head that decodes to a command is run by `exec`, on the state
whose agenda has moved on; with nothing listed, the clock ticks. A word placed by `withFetchWord` is run next.
A reserved word at the head does what the write of it does. The agenda and the action `command` are the model's choice (log
entries 1, 3 and 4). -/
def Obligations.StepRunsTheDecodedCommand : Prop :=
  (∀ (s : State) (v : RegWord) (rest : List Action) (i : Instr), s.agenda = .command v :: rest →
    decode (cmdOfWrite v) = .command i → step s = exec i { s with agenda := rest }) ∧
  (∀ (s : State) (v : RegWord) (rest : List Action) (op : BitVec 4), s.agenda = .command v :: rest →
    decode (cmdOfWrite v) = .reserved op → step s = .next (hostWrite 0x00 v { s with agenda := rest })) ∧
  (∀ (s : State) (nbits w : Nat) (i : Instr), decodeTableWord nbits w = some i →
    step (s.withFetchWord nbits w) = exec i s) ∧
  (∀ s : State, s.agenda = [] → step s = tick s) ∧
  (∀ (s : State) (rest : List Action), s.agenda = .tick :: rest → step s = tick { s with agenda := rest })

/-! ### The commands -/

/-- R120: `START`, from every state of the lines. The first event is the stop condition of R120(c) where the clock is high and
the data low; the third is always the start condition. Its word, its four micro-operations, its duration, and the refusal while
`BUSY = 1` are said too. -/
def Obligations.StartCommand : Prop :=
  ∀ (d : Byte) (s : State),
    (s.Ready → exec (.start d) s = .next { s with
      cmdReg := encode (.start d), sclOut := false, sdaOut := false, session := true, busy := false, upc := 0, settle := 0
      hist := s.hist ++ [if s.sclOut && !s.sdaOut then .stop else .sd true, .sc true, .start, .sc false] }) ∧
    (s.rst = false → s.busy = true → exec (.start d) s = .next { s with ovr := true }) ∧
    (∀ w : CmdWord, w &&& 0xF00#12 = 0x100#12 ↔ ∃ e, decode w = .command (.start e)) ∧
    encode (.start 0) = 0x100#12 ∧ microProgram (.start d) = [.sd true, .sc true, .sd false, .sc false] ∧
    ticksOf (.start d) s.tSettle = 4 * (s.tSettle.toNat + 1) + 1

/-- R121: `STOP`, from every state of the lines. From idle lines its first event is a start condition (R121(b), R204). Its word,
its three micro-operations, its duration, and the refusal while `BUSY = 1` are said too. -/
def Obligations.StopCommand : Prop :=
  ∀ (d : Byte) (s : State),
    (s.Ready → exec (.stop d) s = .next { s with
      cmdReg := encode (.stop d), sclOut := true, sdaOut := true, session := false, busy := false, upc := 0, settle := 0
      hist := s.hist ++ [if s.sclOut && s.sdaOut then .start else .sd false, .sc true, .stop] }) ∧
    (s.rst = false → s.busy = true → exec (.stop d) s = .next { s with ovr := true }) ∧
    (∀ w : CmdWord, w &&& 0xF00#12 = 0x200#12 ↔ ∃ e, decode w = .command (.stop e)) ∧
    encode (.stop 0) = 0x200#12 ∧ microProgram (.stop d) = [.sd false, .sc true, .sd true] ∧
    ticksOf (.stop d) s.tSettle = 3 * (s.tSettle.toNat + 1) + 1

/-- R132: `SENDB b`. With the clock low before it (as in every session) each bit is `sentBitEvents`; with the clock high the
first `SD` may make a condition (R205). The data line keeps `b[0]` in the ninth pulse; no flag but `SESSION` can change. Its
word, its micro-operations, its duration, and the refusal while `BUSY = 1` are said too. -/
def Obligations.SendbCommand : Prop :=
  ∀ (b : Byte) (s : State),
    (s.Ready → exec (.sendb b) s = .next { s with
      cmdReg := encode (.sendb b), sclOut := false, sdaOut := b.getLsbD 0, busy := false, upc := 0, settle := 0
      session := if s.sclOut = true then
          (if s.sdaOut = true ∧ b.getLsbD 7 = false then true
           else if s.sdaOut = false ∧ b.getLsbD 7 = true then false else s.session)
        else s.session
      hist := s.hist ++ (sdEvent s.sclOut s.sdaOut (b.getLsbD 7) :: [.sc true, .sc false]) ++
        ([6, 5, 4, 3, 2, 1, 0].flatMap fun j => sentBitEvents (b.getLsbD j)) ++ [.sc true, .sc false] }) ∧
    (s.rst = false → s.busy = true → exec (.sendb b) s = .next { s with ovr := true }) ∧
    (∀ w : CmdWord, w &&& 0xF00#12 = 0x300#12 ↔ ∃ c, decode w = .command (.sendb c)) ∧
    encode (.sendb b) = 0x300#12 ||| b.setWidth 12 ∧
    microProgram (.sendb b) = ([7, 6, 5, 4, 3, 2, 1, 0].flatMap fun j => [.sd (b.getLsbD j), .sc true, .sc false]) ++
      [.sc true, .sc false] ∧
    ticksOf (.sendb b) s.tSettle = 26 * (s.tSettle.toNat + 1) + 1

/-- R133: `SENDBA b`: as `SENDB` for the eight bits, then the data line is released, and the level on it is sampled while the
ninth pulse is high: it becomes `ACKIN`, and a 1 sets `NACKF`. Its word, its micro-operations, its duration, and the refusal
while `BUSY = 1` are said too. -/
def Obligations.SendbaCommand : Prop :=
  ∀ (b : Byte) (s : State) (v : Level) (inp : SdaInput), s.sdaIn.draw = (v, inp) →
    (s.Ready → exec (.sendba b) s = .next { s with
      cmdReg := encode (.sendba b), sclOut := false, sdaOut := true, busy := false, upc := 0, settle := 0
      ackIn := v, nackF := s.nackF || v, sdaIn := inp
      session := if s.sclOut = true then
          (if s.sdaOut = true ∧ b.getLsbD 7 = false then true
           else if s.sdaOut = false ∧ b.getLsbD 7 = true then false else s.session)
        else s.session
      hist := s.hist ++ (sdEvent s.sclOut s.sdaOut (b.getLsbD 7) :: [.sc true, .sc false]) ++
        ([6, 5, 4, 3, 2, 1, 0].flatMap fun j => sentBitEvents (b.getLsbD j)) ++
        [.sd true, .sc true, .rd v, .sc false] }) ∧
    (s.rst = false → s.busy = true → exec (.sendba b) s = .next { s with ovr := true }) ∧
    (∀ w : CmdWord, w &&& 0xF00#12 = 0x400#12 ↔ ∃ c, decode w = .command (.sendba c)) ∧
    encode (.sendba b) = 0x400#12 ||| b.setWidth 12 ∧
    microProgram (.sendba b) = ([7, 6, 5, 4, 3, 2, 1, 0].flatMap fun j => [.sd (b.getLsbD j), .sc true, .sc false]) ++
      [.sd true, .sc true, .rd .ackIn, .sc false] ∧
    ticksOf (.sendba b) s.tSettle = 28 * (s.tSettle.toNat + 1) + 1

/-- R134: `RECVB`. Eight draws of `sda_i`; the first sampled level becomes bit 7, the eighth bit 0; the whole byte is delivered
at completion and not before; `RXSHIFT` starts empty. With the clock high and the data low before it, its `SD(1)` makes a stop condition (R92). Its word, its
micro-operations, its duration, and the refusal while `BUSY = 1` are said too. -/
def Obligations.RecvbCommand : Prop :=
  ∀ (d : Byte) (s : State) (v7 v6 v5 v4 v3 v2 v1 v0 : Level) (inp : SdaInput),
    s.sdaIn.drawMany 8 = ([v7, v6, v5, v4, v3, v2, v1, v0], inp) →
    (s.Ready → ∃ r : Byte, r.toNat = v7.toNat * 128 + v6.toNat * 64 + v5.toNat * 32 + v4.toNat * 16 + v3.toNat * 8 +
        v2.toNat * 4 + v1.toNat * 2 + v0.toNat ∧
      exec (.recvb d) s = .next { s with
        cmdReg := encode (.recvb d), sclOut := false, sdaOut := true, busy := false, upc := 0, settle := 0
        rxShift := r, rxData := r, sdaIn := inp
        session := if s.sclOut = true ∧ s.sdaOut = false then false else s.session
        hist := s.hist ++ (sdEvent s.sclOut s.sdaOut true :: [v7, v6, v5, v4, v3, v2, v1, v0].flatMap receivedBitEvents) }) ∧
    (s.Ready → (hostWrite 0x00 (cmdWrite (.recvb d)) s).rxShift = 0x00#8 ∧
      ∀ k, (performAll ((microProgram (.recvb d)).take k) (hostWrite 0x00 (cmdWrite (.recvb d)) s)).rxData = s.rxData) ∧
    (s.rst = false → s.busy = true → exec (.recvb d) s = .next { s with ovr := true }) ∧
    (∀ w : CmdWord, w &&& 0xF00#12 = 0x500#12 ↔ ∃ e, decode w = .command (.recvb e)) ∧
    encode (.recvb 0) = 0x500#12 ∧
    microProgram (.recvb d) = .sd true :: ([7, 6, 5, 4, 3, 2, 1, 0].flatMap fun i => [.sc true, .rd (.rxShift i), .sc false]) ∧
    ticksOf (.recvb d) s.tSettle = 25 * (s.tSettle.toNat + 1) + 1

/-- R135: `SENDACK a`: one bit, sent as a data bit; the line is left at `a`; `ACKIN` and `NACKF` do not change. Its word, its
micro-operations, its duration, and the refusal while `BUSY = 1` are said too. -/
def Obligations.SendackCommand : Prop :=
  ∀ (a : Level) (hi : BitVec 7) (s : State),
    (s.Ready → exec (.sendack a hi) s = .next { s with
      cmdReg := encode (.sendack a hi), sclOut := false, sdaOut := a, busy := false, upc := 0, settle := 0
      session := sessionAfter (sdEvent s.sclOut s.sdaOut a) s.session
      hist := s.hist ++ [sdEvent s.sclOut s.sdaOut a, .sc true, .sc false] }) ∧
    (s.rst = false → s.busy = true → exec (.sendack a hi) s = .next { s with ovr := true }) ∧
    (∀ w : CmdWord, w &&& 0xF00#12 = 0x600#12 ↔ ∃ p q, decode w = .command (.sendack p q)) ∧
    encode (.sendack a 0) = 0x600#12 ||| (BitVec.ofBool a).setWidth 12 ∧
    microProgram (.sendack a hi) = [.sd a, .sc true, .sc false] ∧
    ticksOf (.sendack a hi) s.tSettle = 3 * (s.tSettle.toNat + 1) + 1

/-- The frame of a command, all six at once (R34, R125, R132 to R135): the flags and registers no command, or only the named
one, writes. -/
def Obligations.CommandFrame : Prop :=
  ∀ (i : Instr) (s : State), s.Ready → ∃ t, exec i s = .next t ∧
    t.cmdReg = encode i ∧ t.busy = false ∧ t.upc = 0 ∧ t.settle = 0 ∧
    t.tSettle = s.tSettle ∧ t.ovr = s.ovr ∧ t.ill = s.ill ∧ t.rst = s.rst ∧ t.agenda = s.agenda ∧ t.reads = s.reads ∧
    ((∀ b, i ≠ .sendba b) → t.ackIn = s.ackIn ∧ t.nackF = s.nackF) ∧
    ((∀ d, i ≠ .recvb d) → t.rxData = s.rxData ∧ t.rxShift = s.rxShift) ∧
    ((∀ b, i ≠ .sendba b) → (∀ d, i ≠ .recvb d) → t.sdaIn = s.sdaIn) ∧
    (isByteCommand i = true → s.sclOut = false → t.session = s.session)

/-- R138: the lines after each command, whatever they were before. -/
def Obligations.LinesAfterEachCommand : Prop :=
  ∀ (i : Instr) (s : State), s.Ready → ∃ t, exec i s = .next t ∧
    (t.sclOut, t.sdaOut) = match i with
      | .start _ => (false, false)
      | .stop _ => (true, true)
      | .sendb b => (false, b.getLsbD 0)
      | .sendba _ => (false, true)
      | .recvb _ => (false, true)
      | .sendack a _ => (false, a)

/-- R139: clock-low discipline. Of a byte command accepted with the clock low, each `SD` is performed with the clock low, each
`RD()` with the clock high and the data line released, `SESSION` is left alone and the clock ends low. -/
def Obligations.ClockLowDiscipline : Prop :=
  ∀ (i : Instr) (s : State), isByteCommand i = true → s.sclOut = false →
    (∀ k (h : k < (microProgram i).length),
      let before := performAll ((microProgram i).take k) (beginCommand (encode i) s)
      (∀ l, (microProgram i)[k] = .sd l → before.sclOut = false) ∧
      (∀ d, (microProgram i)[k] = .rd d → before.sclOut = true ∧ before.sdaOut = true) ∧ before.session = s.session) ∧
    (performAll (microProgram i) (beginCommand (encode i) s)).session = s.session ∧
    (performAll (microProgram i) (beginCommand (encode i) s)).sclOut = false

/-- R56: in every command, from every state of the lines, `RD()` is performed only while the data line is released. So under the
usual wiring the sample is the slave's own level. -/
def Obligations.SamplesOnlyTheReleasedLine : Prop :=
  ∀ (i : Instr) (s : State) (k : Nat) (h : k < (microProgram i).length) (d : RdDest) (slave : Level),
    (microProgram i)[k] = .rd d →
    wiredAnd (performAll ((microProgram i).take k) s).sdaOut slave = slave

/-- R9, R34, R100: what a command does to the lines depends on the lines before it and on nothing else: no flag, no register and
no sample changes it. The events of two runs from equal outputs differ at most in the sampled values. -/
def Obligations.LineSequenceDependsOnLinesOnly : Prop :=
  ∀ (i : Instr) (s₁ s₂ : State), s₁.Ready → s₂.Ready → s₁.sclOut = s₂.sclOut → s₁.sdaOut = s₂.sdaOut →
    ∃ t₁ t₂ es₁ es₂, exec i s₁ = .next t₁ ∧ exec i s₂ = .next t₂ ∧ t₁.hist = s₁.hist ++ es₁ ∧ t₂.hist = s₂.hist ++ es₂ ∧
      es₁.map LineEvent.withoutSample = es₂.map LineEvent.withoutSample ∧ es₁.length = Instr.len i

/-! ### Sequences -/

/-- R123: from idle, `START` then `STOP` appends the seven events and leaves the lines idle high and no session open; the host reads `LINES[1:0] = 0b11`. -/
def Obligations.StartThenStop : Prop :=
  ∀ (d d' : Byte) (s : State), s.Idle → ∃ t, execAll [.start d, .stop d'] s = .next t ∧ t.Idle ∧
    t.hist = s.hist ++ [.sd true, .sc true, .start, .sc false, .sd false, .sc true, .stop] ∧
    ∀ sda, (readValue 0x10 sda t).extractLsb' 0 2 = 0b11#2

/-- R122, R124, R153: a transaction from idle lines. Whatever `START`s and byte commands stand between its first `START` and its
`STOP`, it completes; `HIST` gains exactly one `EvSTART` for each `START` and one `EvSTOP`, the last event; the session is
open throughout, and the lines end idle. -/
def Obligations.TransactionMakesOnlyItsConditions : Prop :=
  ∀ (d d' : Byte) (cs : List Instr) (s : State), s.Idle → (∀ i ∈ cs, isInner i = true) →
    ∃ m t es, execAll (.start d :: cs) s = .next m ∧ m.session = true ∧ m.sclOut = false ∧
      execAll (.start d :: cs ++ [.stop d']) s = .next t ∧ t.Idle ∧
      t.hist = s.hist ++ es ∧ es.getLast? = some .stop ∧ es.count .stop = 1 ∧
      es.count .start = 1 + (cs.filter fun i => i.op == 0x1#4).length

/-- R137: the loopback property (X8). The data levels at the first eight clock rises of a sent byte are its bits, and a `RECVB`
that is presented those levels receives the byte, for both send commands and every byte. -/
def Obligations.LoopbackReproducesTheByte : Prop :=
  ∀ (b : Byte) (i : Instr) (s : State), s.Ready → i = .sendb b ∨ i = .sendba b →
    ∃ t es, exec i s = .next t ∧ t.hist = s.hist ++ es ∧ (dataAtClockHigh s.wires es).take 8 = wireBits b ∧
      ∀ (d : Byte) (u : State) (rest : List Level), u.Ready →
        u.sdaIn.upcoming = (dataAtClockHigh s.wires es).take 8 ++ rest →
        ∃ t', exec (.recvb d) u = .next t' ∧ t'.rxData = b

/-- R156: `writeRegister`, from idle, for every slave, address and value and every three samples: 91 events, `NACKF` afterwards
says whether any sample was 1 (or it was set before), and the tick total. -/
def Obligations.WriteRegisterSequence : Prop :=
  ∀ (a : BitVec 7) (addr value : Byte) (s : State) (v1 v2 v3 : Level) (inp : SdaInput), s.Idle →
    s.sdaIn.drawMany 3 = ([v1, v2, v3], inp) →
    ∃ t, execAll (writeRegister a addr value) s = .next t ∧ t.Idle ∧ t.hist.length = s.hist.length + 91 ∧
      t.nackF = (s.nackF || v1 || v2 || v3) ∧ t.ackIn = v3 ∧ t.rxData = s.rxData ∧ t.sdaIn = inp ∧
      microOpCount (writeRegister a addr value) = 91 ∧
      sequenceTicks (writeRegister a addr value) s.tSettle = 91 * (s.tSettle.toNat + 1) + 5

/-- R157: `readRegister`, from idle, for every slave, address and environment (any eleven draws are three acknowledges and the
bits of some value): exactly two start conditions and one stop condition, the last event; the eight samples after the third
acknowledge are the value. The form of the draws is the model's choice (log entry 2). -/
def Obligations.ReadRegisterSequence : Prop :=
  ∀ (a : BitVec 7) (addr : Byte) (s : State) (vs : List Level) (inp : SdaInput), s.Idle →
    s.sdaIn.drawMany 11 = (vs, inp) →
    ∃ v1 v2 v3 value t es, vs = v1 :: v2 :: v3 :: wireBits value ∧
      execAll (readRegister a addr) s = .next t ∧ t.Idle ∧ t.hist = s.hist ++ es ∧ es.length = 123 ∧
      es.count .start = 2 ∧ es.count .stop = 1 ∧ es.getLast? = some .stop ∧ t.rxData = value ∧
      t.nackF = (s.nackF || v1 || v2 || v3) ∧ t.ackIn = v3 ∧ t.sdaIn = inp ∧
      microOpCount (readRegister a addr) = 123 ∧
      sequenceTicks (readRegister a addr) s.tSettle = 123 * (s.tSettle.toNat + 1) + 8

/-- X10 of spec/95 (the source's register round trip): against the echo slave, `writeRegister(r, v)` then `readRegister(r)`
gives `v`, for every slave address, register, value and earlier contents, and every sample acknowledges.
The echo slave is the model's reading of section 0 of spec/95 (log entry 15). -/
def Obligations.RegisterRoundTripAgainstEchoSlave : Prop :=
  ∀ (a : BitVec 7) (r v : Byte) (s : State) (sl : EchoSlave), s.Idle → sl.address = a →
    ∃ t sl', execAgainst (writeRegister a r v ++ readRegister a r) s sl = some (t, sl') ∧ t.Idle ∧ t.rxData = v ∧
      t.ackIn = false ∧ t.nackF = s.nackF ∧ sl'.read r = v

/-- R161: the host's combination of two bytes, as a signed 16-bit number. -/
def Obligations.AxisValueIsSigned : Prop :=
  ∀ high low : Byte, (combineBytes high low).toNat = high.toNat * 256 + low.toNat ∧
    axisValue high low = if high.toNat * 256 + low.toNat < 32768 then ((high.toNat * 256 + low.toNat : Nat) : Int)
      else ((high.toNat * 256 + low.toNat : Nat) : Int) - 65536

/-- R153: the grammar, and the documented use inside it: every documented transaction is a transaction of the grammar, and the
register protocol's sequences are documented transactions for every operand.
`isDocumentedTransaction` is the model's reading of the rule's prose: stretches with no phase and `START STOP` count (log entry 17). -/
def Obligations.RegisterProtocolIsWellFormed : Prop :=
  (∀ cs, isDocumentedTransaction cs = true → isTransaction cs = true) ∧
  (∀ a addr value, isDocumentedTransaction (writeRegister a addr value) = true) ∧
  (∀ a addr, isDocumentedTransaction (readRegister a addr) = true)

/-! ### Invariants -/

/-- R33, R30, R95 at the reset state. -/
def Obligations.InvariantsHoldAtReset : Prop := State.reset.Inv ∧ State.reset.HistoryTrue

/-- R33: every step, of any agent, from every state that meets the invariant, gives a state that meets it. The invariant says
(d) through `HIST` (log entry 9), and its clause on a held reset is the model's (log entry 5). -/
def Obligations.InvariantKeptByEveryStep : Prop :=
  ∀ s t : State, s.Inv → step s = .next t → t.Inv

/-- R30, R95, R90: the history explains the lines and the session: every step that finds it so leaves it so, so that `SESSION` is
1 exactly when the last condition recorded since reset is a start condition, and `EvSTART`, `EvSTOP` and `EvSD` are recorded
where the rule says. -/
def Obligations.HistoryTrueKeptByEveryStep : Prop :=
  ∀ s t : State, s.HistoryTrue → step s = .next t → t.HistoryTrue

/-- R30, R55, R58, R194: no step takes an event out of the history or changes one; it only appends. -/
def Obligations.HistoryOnlyGrows : Prop :=
  ∀ s t : State, step s = .next t → ∃ es, t.hist = s.hist ++ es

/-- R170, R96, R108: the block raises no fault. From every state that meets the invariant, any number of steps of any agents
either goes on or meets a host access the model refuses. -/
def Obligations.NoRunFaults : Prop :=
  ∀ (n : Nat) (s : State) (f : Fault), s.Inv → run n s ≠ .fault f

/-- R24, R47, R177: `NACKF` is sticky. A step that takes it from 1 to 0 is a reset, or a write of `STATUS` with bit 4 set. -/
def Obligations.NackFlagIsSticky : Prop :=
  ∀ s t : State, step s = .next t → s.nackF = true → t.nackF = false →
    (∃ rest, s.agenda = .rst true :: rest) ∨
    ∃ v rest, s.agenda = .write 0x04 4 v :: rest ∧ v.getLsbD 4 = true

end
end

