-- ==== Sys2Proof/Laws/State.lean ====
section
/-! SUPPORT. One lemma per field per named update of the state, true by rfl, so that no proof unfolds a record update. -/

namespace Sys2Proof.Machine

/-! `setClock` -/

@[simp] theorem setClock_sclOut (l : Level) (s : State) : (setClock l s).sclOut = l := rfl
@[simp] theorem setClock_sdaOut (l : Level) (s : State) : (setClock l s).sdaOut = s.sdaOut := rfl
@[simp] theorem setClock_cmdReg (l : Level) (s : State) : (setClock l s).cmdReg = s.cmdReg := rfl
@[simp] theorem setClock_busy (l : Level) (s : State) : (setClock l s).busy = s.busy := rfl
@[simp] theorem setClock_tSettle (l : Level) (s : State) : (setClock l s).tSettle = s.tSettle := rfl
@[simp] theorem setClock_upc (l : Level) (s : State) : (setClock l s).upc = s.upc := rfl
@[simp] theorem setClock_settle (l : Level) (s : State) : (setClock l s).settle = s.settle := rfl
@[simp] theorem setClock_rxShift (l : Level) (s : State) : (setClock l s).rxShift = s.rxShift := rfl
@[simp] theorem setClock_rxData (l : Level) (s : State) : (setClock l s).rxData = s.rxData := rfl
@[simp] theorem setClock_ackIn (l : Level) (s : State) : (setClock l s).ackIn = s.ackIn := rfl
@[simp] theorem setClock_session (l : Level) (s : State) : (setClock l s).session = s.session := rfl
@[simp] theorem setClock_nackF (l : Level) (s : State) : (setClock l s).nackF = s.nackF := rfl
@[simp] theorem setClock_ovr (l : Level) (s : State) : (setClock l s).ovr = s.ovr := rfl
@[simp] theorem setClock_ill (l : Level) (s : State) : (setClock l s).ill = s.ill := rfl
@[simp] theorem setClock_hist (l : Level) (s : State) : (setClock l s).hist = s.hist ++ [.sc l] := rfl
@[simp] theorem setClock_rst (l : Level) (s : State) : (setClock l s).rst = s.rst := rfl
@[simp] theorem setClock_sdaIn (l : Level) (s : State) : (setClock l s).sdaIn = s.sdaIn := rfl
@[simp] theorem setClock_agenda (l : Level) (s : State) : (setClock l s).agenda = s.agenda := rfl
@[simp] theorem setClock_reads (l : Level) (s : State) : (setClock l s).reads = s.reads := rfl

/-! `setData` -/

@[simp] theorem setData_sclOut (l : Level) (s : State) : (setData l s).sclOut = s.sclOut := rfl
@[simp] theorem setData_sdaOut (l : Level) (s : State) : (setData l s).sdaOut = l := rfl
@[simp] theorem setData_cmdReg (l : Level) (s : State) : (setData l s).cmdReg = s.cmdReg := rfl
@[simp] theorem setData_busy (l : Level) (s : State) : (setData l s).busy = s.busy := rfl
@[simp] theorem setData_tSettle (l : Level) (s : State) : (setData l s).tSettle = s.tSettle := rfl
@[simp] theorem setData_upc (l : Level) (s : State) : (setData l s).upc = s.upc := rfl
@[simp] theorem setData_settle (l : Level) (s : State) : (setData l s).settle = s.settle := rfl
@[simp] theorem setData_rxShift (l : Level) (s : State) : (setData l s).rxShift = s.rxShift := rfl
@[simp] theorem setData_rxData (l : Level) (s : State) : (setData l s).rxData = s.rxData := rfl
@[simp] theorem setData_ackIn (l : Level) (s : State) : (setData l s).ackIn = s.ackIn := rfl
@[simp] theorem setData_session (l : Level) (s : State) : (setData l s).session = sessionAfter (sdEvent s.sclOut s.sdaOut l) s.session := rfl
@[simp] theorem setData_nackF (l : Level) (s : State) : (setData l s).nackF = s.nackF := rfl
@[simp] theorem setData_ovr (l : Level) (s : State) : (setData l s).ovr = s.ovr := rfl
@[simp] theorem setData_ill (l : Level) (s : State) : (setData l s).ill = s.ill := rfl
@[simp] theorem setData_hist (l : Level) (s : State) : (setData l s).hist = s.hist ++ [sdEvent s.sclOut s.sdaOut l] := rfl
@[simp] theorem setData_rst (l : Level) (s : State) : (setData l s).rst = s.rst := rfl
@[simp] theorem setData_sdaIn (l : Level) (s : State) : (setData l s).sdaIn = s.sdaIn := rfl
@[simp] theorem setData_agenda (l : Level) (s : State) : (setData l s).agenda = s.agenda := rfl
@[simp] theorem setData_reads (l : Level) (s : State) : (setData l s).reads = s.reads := rfl

/-! `recordAck` -/

@[simp] theorem recordAck_sclOut (v : Level) (s : State) : (recordAck v s).sclOut = s.sclOut := rfl
@[simp] theorem recordAck_sdaOut (v : Level) (s : State) : (recordAck v s).sdaOut = s.sdaOut := rfl
@[simp] theorem recordAck_cmdReg (v : Level) (s : State) : (recordAck v s).cmdReg = s.cmdReg := rfl
@[simp] theorem recordAck_busy (v : Level) (s : State) : (recordAck v s).busy = s.busy := rfl
@[simp] theorem recordAck_tSettle (v : Level) (s : State) : (recordAck v s).tSettle = s.tSettle := rfl
@[simp] theorem recordAck_upc (v : Level) (s : State) : (recordAck v s).upc = s.upc := rfl
@[simp] theorem recordAck_settle (v : Level) (s : State) : (recordAck v s).settle = s.settle := rfl
@[simp] theorem recordAck_rxShift (v : Level) (s : State) : (recordAck v s).rxShift = s.rxShift := rfl
@[simp] theorem recordAck_rxData (v : Level) (s : State) : (recordAck v s).rxData = s.rxData := rfl
@[simp] theorem recordAck_ackIn (v : Level) (s : State) : (recordAck v s).ackIn = v := rfl
@[simp] theorem recordAck_session (v : Level) (s : State) : (recordAck v s).session = s.session := rfl
@[simp] theorem recordAck_nackF (v : Level) (s : State) : (recordAck v s).nackF = (s.nackF || v) := rfl
@[simp] theorem recordAck_ovr (v : Level) (s : State) : (recordAck v s).ovr = s.ovr := rfl
@[simp] theorem recordAck_ill (v : Level) (s : State) : (recordAck v s).ill = s.ill := rfl
@[simp] theorem recordAck_hist (v : Level) (s : State) : (recordAck v s).hist = s.hist := rfl
@[simp] theorem recordAck_rst (v : Level) (s : State) : (recordAck v s).rst = s.rst := rfl
@[simp] theorem recordAck_sdaIn (v : Level) (s : State) : (recordAck v s).sdaIn = s.sdaIn := rfl
@[simp] theorem recordAck_agenda (v : Level) (s : State) : (recordAck v s).agenda = s.agenda := rfl
@[simp] theorem recordAck_reads (v : Level) (s : State) : (recordAck v s).reads = s.reads := rfl

/-! `beginCommand` -/

@[simp] theorem beginCommand_sclOut (w : CmdWord) (s : State) : (beginCommand w s).sclOut = s.sclOut := rfl
@[simp] theorem beginCommand_sdaOut (w : CmdWord) (s : State) : (beginCommand w s).sdaOut = s.sdaOut := rfl
@[simp] theorem beginCommand_cmdReg (w : CmdWord) (s : State) : (beginCommand w s).cmdReg = w := rfl
@[simp] theorem beginCommand_busy (w : CmdWord) (s : State) : (beginCommand w s).busy = true := rfl
@[simp] theorem beginCommand_tSettle (w : CmdWord) (s : State) : (beginCommand w s).tSettle = s.tSettle := rfl
@[simp] theorem beginCommand_upc (w : CmdWord) (s : State) : (beginCommand w s).upc = 0 := rfl
@[simp] theorem beginCommand_settle (w : CmdWord) (s : State) : (beginCommand w s).settle = 0 := rfl
@[simp] theorem beginCommand_rxShift (w : CmdWord) (s : State) : (beginCommand w s).rxShift = if opcodeField w = 0x5#4 then 0x00#8 else s.rxShift := rfl
@[simp] theorem beginCommand_rxData (w : CmdWord) (s : State) : (beginCommand w s).rxData = s.rxData := rfl
@[simp] theorem beginCommand_ackIn (w : CmdWord) (s : State) : (beginCommand w s).ackIn = s.ackIn := rfl
@[simp] theorem beginCommand_session (w : CmdWord) (s : State) : (beginCommand w s).session = s.session := rfl
@[simp] theorem beginCommand_nackF (w : CmdWord) (s : State) : (beginCommand w s).nackF = s.nackF := rfl
@[simp] theorem beginCommand_ovr (w : CmdWord) (s : State) : (beginCommand w s).ovr = s.ovr := rfl
@[simp] theorem beginCommand_ill (w : CmdWord) (s : State) : (beginCommand w s).ill = s.ill := rfl
@[simp] theorem beginCommand_hist (w : CmdWord) (s : State) : (beginCommand w s).hist = s.hist := rfl
@[simp] theorem beginCommand_rst (w : CmdWord) (s : State) : (beginCommand w s).rst = s.rst := rfl
@[simp] theorem beginCommand_sdaIn (w : CmdWord) (s : State) : (beginCommand w s).sdaIn = s.sdaIn := rfl
@[simp] theorem beginCommand_agenda (w : CmdWord) (s : State) : (beginCommand w s).agenda = s.agenda := rfl
@[simp] theorem beginCommand_reads (w : CmdWord) (s : State) : (beginCommand w s).reads = s.reads := rfl

/-! `complete` -/

@[simp] theorem complete_sclOut (s : State) : (complete s).sclOut = s.sclOut := rfl
@[simp] theorem complete_sdaOut (s : State) : (complete s).sdaOut = s.sdaOut := rfl
@[simp] theorem complete_cmdReg (s : State) : (complete s).cmdReg = s.cmdReg := rfl
@[simp] theorem complete_busy (s : State) : (complete s).busy = false := rfl
@[simp] theorem complete_tSettle (s : State) : (complete s).tSettle = s.tSettle := rfl
@[simp] theorem complete_upc (s : State) : (complete s).upc = 0 := rfl
@[simp] theorem complete_settle (s : State) : (complete s).settle = s.settle := rfl
@[simp] theorem complete_rxShift (s : State) : (complete s).rxShift = s.rxShift := rfl
@[simp] theorem complete_rxData (s : State) : (complete s).rxData = if opcodeField s.cmdReg = 0x5#4 then s.rxShift else s.rxData := rfl
@[simp] theorem complete_ackIn (s : State) : (complete s).ackIn = s.ackIn := rfl
@[simp] theorem complete_session (s : State) : (complete s).session = s.session := rfl
@[simp] theorem complete_nackF (s : State) : (complete s).nackF = s.nackF := rfl
@[simp] theorem complete_ovr (s : State) : (complete s).ovr = s.ovr := rfl
@[simp] theorem complete_ill (s : State) : (complete s).ill = s.ill := rfl
@[simp] theorem complete_hist (s : State) : (complete s).hist = s.hist := rfl
@[simp] theorem complete_rst (s : State) : (complete s).rst = s.rst := rfl
@[simp] theorem complete_sdaIn (s : State) : (complete s).sdaIn = s.sdaIn := rfl
@[simp] theorem complete_agenda (s : State) : (complete s).agenda = s.agenda := rfl
@[simp] theorem complete_reads (s : State) : (complete s).reads = s.reads := rfl

/-! `raiseOvr` -/

@[simp] theorem raiseOvr_sclOut (s : State) : (raiseOvr s).sclOut = s.sclOut := rfl
@[simp] theorem raiseOvr_sdaOut (s : State) : (raiseOvr s).sdaOut = s.sdaOut := rfl
@[simp] theorem raiseOvr_cmdReg (s : State) : (raiseOvr s).cmdReg = s.cmdReg := rfl
@[simp] theorem raiseOvr_busy (s : State) : (raiseOvr s).busy = s.busy := rfl
@[simp] theorem raiseOvr_tSettle (s : State) : (raiseOvr s).tSettle = s.tSettle := rfl
@[simp] theorem raiseOvr_upc (s : State) : (raiseOvr s).upc = s.upc := rfl
@[simp] theorem raiseOvr_settle (s : State) : (raiseOvr s).settle = s.settle := rfl
@[simp] theorem raiseOvr_rxShift (s : State) : (raiseOvr s).rxShift = s.rxShift := rfl
@[simp] theorem raiseOvr_rxData (s : State) : (raiseOvr s).rxData = s.rxData := rfl
@[simp] theorem raiseOvr_ackIn (s : State) : (raiseOvr s).ackIn = s.ackIn := rfl
@[simp] theorem raiseOvr_session (s : State) : (raiseOvr s).session = s.session := rfl
@[simp] theorem raiseOvr_nackF (s : State) : (raiseOvr s).nackF = s.nackF := rfl
@[simp] theorem raiseOvr_ovr (s : State) : (raiseOvr s).ovr = true := rfl
@[simp] theorem raiseOvr_ill (s : State) : (raiseOvr s).ill = s.ill := rfl
@[simp] theorem raiseOvr_hist (s : State) : (raiseOvr s).hist = s.hist := rfl
@[simp] theorem raiseOvr_rst (s : State) : (raiseOvr s).rst = s.rst := rfl
@[simp] theorem raiseOvr_sdaIn (s : State) : (raiseOvr s).sdaIn = s.sdaIn := rfl
@[simp] theorem raiseOvr_agenda (s : State) : (raiseOvr s).agenda = s.agenda := rfl
@[simp] theorem raiseOvr_reads (s : State) : (raiseOvr s).reads = s.reads := rfl

/-! `raiseIll` -/

@[simp] theorem raiseIll_sclOut (s : State) : (raiseIll s).sclOut = s.sclOut := rfl
@[simp] theorem raiseIll_sdaOut (s : State) : (raiseIll s).sdaOut = s.sdaOut := rfl
@[simp] theorem raiseIll_cmdReg (s : State) : (raiseIll s).cmdReg = s.cmdReg := rfl
@[simp] theorem raiseIll_busy (s : State) : (raiseIll s).busy = s.busy := rfl
@[simp] theorem raiseIll_tSettle (s : State) : (raiseIll s).tSettle = s.tSettle := rfl
@[simp] theorem raiseIll_upc (s : State) : (raiseIll s).upc = s.upc := rfl
@[simp] theorem raiseIll_settle (s : State) : (raiseIll s).settle = s.settle := rfl
@[simp] theorem raiseIll_rxShift (s : State) : (raiseIll s).rxShift = s.rxShift := rfl
@[simp] theorem raiseIll_rxData (s : State) : (raiseIll s).rxData = s.rxData := rfl
@[simp] theorem raiseIll_ackIn (s : State) : (raiseIll s).ackIn = s.ackIn := rfl
@[simp] theorem raiseIll_session (s : State) : (raiseIll s).session = s.session := rfl
@[simp] theorem raiseIll_nackF (s : State) : (raiseIll s).nackF = s.nackF := rfl
@[simp] theorem raiseIll_ovr (s : State) : (raiseIll s).ovr = s.ovr := rfl
@[simp] theorem raiseIll_ill (s : State) : (raiseIll s).ill = true := rfl
@[simp] theorem raiseIll_hist (s : State) : (raiseIll s).hist = s.hist := rfl
@[simp] theorem raiseIll_rst (s : State) : (raiseIll s).rst = s.rst := rfl
@[simp] theorem raiseIll_sdaIn (s : State) : (raiseIll s).sdaIn = s.sdaIn := rfl
@[simp] theorem raiseIll_agenda (s : State) : (raiseIll s).agenda = s.agenda := rfl
@[simp] theorem raiseIll_reads (s : State) : (raiseIll s).reads = s.reads := rfl

/-! `clearSticky` -/

@[simp] theorem clearSticky_sclOut (v : RegWord) (s : State) : (clearSticky v s).sclOut = s.sclOut := rfl
@[simp] theorem clearSticky_sdaOut (v : RegWord) (s : State) : (clearSticky v s).sdaOut = s.sdaOut := rfl
@[simp] theorem clearSticky_cmdReg (v : RegWord) (s : State) : (clearSticky v s).cmdReg = s.cmdReg := rfl
@[simp] theorem clearSticky_busy (v : RegWord) (s : State) : (clearSticky v s).busy = s.busy := rfl
@[simp] theorem clearSticky_tSettle (v : RegWord) (s : State) : (clearSticky v s).tSettle = s.tSettle := rfl
@[simp] theorem clearSticky_upc (v : RegWord) (s : State) : (clearSticky v s).upc = s.upc := rfl
@[simp] theorem clearSticky_settle (v : RegWord) (s : State) : (clearSticky v s).settle = s.settle := rfl
@[simp] theorem clearSticky_rxShift (v : RegWord) (s : State) : (clearSticky v s).rxShift = s.rxShift := rfl
@[simp] theorem clearSticky_rxData (v : RegWord) (s : State) : (clearSticky v s).rxData = s.rxData := rfl
@[simp] theorem clearSticky_ackIn (v : RegWord) (s : State) : (clearSticky v s).ackIn = s.ackIn := rfl
@[simp] theorem clearSticky_session (v : RegWord) (s : State) : (clearSticky v s).session = s.session := rfl
@[simp] theorem clearSticky_nackF (v : RegWord) (s : State) : (clearSticky v s).nackF = (s.nackF && !v.getLsbD 4) := rfl
@[simp] theorem clearSticky_ovr (v : RegWord) (s : State) : (clearSticky v s).ovr = (s.ovr && !v.getLsbD 5) := rfl
@[simp] theorem clearSticky_ill (v : RegWord) (s : State) : (clearSticky v s).ill = (s.ill && !v.getLsbD 6) := rfl
@[simp] theorem clearSticky_hist (v : RegWord) (s : State) : (clearSticky v s).hist = s.hist := rfl
@[simp] theorem clearSticky_rst (v : RegWord) (s : State) : (clearSticky v s).rst = s.rst := rfl
@[simp] theorem clearSticky_sdaIn (v : RegWord) (s : State) : (clearSticky v s).sdaIn = s.sdaIn := rfl
@[simp] theorem clearSticky_agenda (v : RegWord) (s : State) : (clearSticky v s).agenda = s.agenda := rfl
@[simp] theorem clearSticky_reads (v : RegWord) (s : State) : (clearSticky v s).reads = s.reads := rfl

end Sys2Proof.Machine
end

