-- ==== Sys2Proof/Laws/HostAccess.lean ====
section
/-! SUPPORT. The register map, one lemma per register (R41), so that no proof unfolds the match on offsets. -/

namespace Sys2Proof.Machine

@[simp] theorem readValue_cmd (sda : Level) (s : State) : readValue 0x00 sda s = s.cmdReg.setWidth 32 := rfl
@[simp] theorem readValue_status (sda : Level) (s : State) : readValue 0x04 sda s = statusWord s := rfl
@[simp] theorem readValue_rxData (sda : Level) (s : State) : readValue 0x08 sda s = s.rxData.setWidth 32 := rfl
@[simp] theorem readValue_tSettle (sda : Level) (s : State) : readValue 0x0C sda s = s.tSettle.setWidth 32 := rfl
@[simp] theorem readValue_lines (sda : Level) (s : State) : readValue 0x10 sda s = linesWord sda s := rfl

/-- While `rst` is 1 a host write has no effect (R190). -/
theorem hostWrite_held (off : Nat) (v : RegWord) (s : State) (h : s.rst = true) : hostWrite off v s = s := by
  simp [hostWrite, h]

theorem hostWrite_cmd (v : RegWord) (s : State) (h : s.rst = false) :
    hostWrite 0x00 v s = accept (cmdOfWrite v) s := by
  unfold hostWrite; rw [h]; rfl

theorem hostWrite_status (v : RegWord) (s : State) (h : s.rst = false) :
    hostWrite 0x04 v s = clearSticky v s := by
  unfold hostWrite; rw [h]; rfl

theorem hostWrite_tSettle (v : RegWord) (s : State) (h : s.rst = false) :
    hostWrite 0x0C v s = writeTSettle v s := by
  unfold hostWrite; rw [h]; rfl

/-- An offset that is none of the three writable registers' ignores the write (R48, R50, R51). -/
theorem hostWrite_other (off : Nat) (v : RegWord) (s : State) (h0 : off ≠ 0x00) (h4 : off ≠ 0x04) (hc : off ≠ 0x0C) :
    hostWrite off v s = s := by
  unfold hostWrite
  split
  · rfl
  · split <;> simp_all

/-- The bits of a write of `CMD` that carry a command are the command's (R44). -/
theorem cmdOfWrite_setWidth (w : CmdWord) : cmdOfWrite (w.setWidth 32) = w := by
  ext j hj
  simp [cmdOfWrite, hj]
  omega

end Sys2Proof.Machine
end

