-- ==== Sys2Proof/Laws/Ops.lean ====
section
/-! SUPPORT. What the shared operations can do, said once each: the micro-operations, whole micro-programs, acceptance and the
command-level transition. -/

namespace Sys2Proof.Machine

/-! ### Frames: what a micro-operation and a series of them never touch -/

@[simp] theorem perform_cmdReg (u : Uop) (s : State) : (perform u s).cmdReg = s.cmdReg := by
  cases u with
  | rd d => cases d <;> rfl
  | _ => rfl
@[simp] theorem perform_busy (u : Uop) (s : State) : (perform u s).busy = s.busy := by
  cases u with
  | rd d => cases d <;> rfl
  | _ => rfl
@[simp] theorem perform_tSettle (u : Uop) (s : State) : (perform u s).tSettle = s.tSettle := by
  cases u with
  | rd d => cases d <;> rfl
  | _ => rfl
@[simp] theorem perform_upc (u : Uop) (s : State) : (perform u s).upc = s.upc := by
  cases u with
  | rd d => cases d <;> rfl
  | _ => rfl
@[simp] theorem perform_settle (u : Uop) (s : State) : (perform u s).settle = s.settle := by
  cases u with
  | rd d => cases d <;> rfl
  | _ => rfl
@[simp] theorem perform_rxData (u : Uop) (s : State) : (perform u s).rxData = s.rxData := by
  cases u with
  | rd d => cases d <;> rfl
  | _ => rfl
@[simp] theorem perform_ovr (u : Uop) (s : State) : (perform u s).ovr = s.ovr := by
  cases u with
  | rd d => cases d <;> rfl
  | _ => rfl
@[simp] theorem perform_ill (u : Uop) (s : State) : (perform u s).ill = s.ill := by
  cases u with
  | rd d => cases d <;> rfl
  | _ => rfl
@[simp] theorem perform_rst (u : Uop) (s : State) : (perform u s).rst = s.rst := by
  cases u with
  | rd d => cases d <;> rfl
  | _ => rfl
@[simp] theorem perform_agenda (u : Uop) (s : State) : (perform u s).agenda = s.agenda := by
  cases u with
  | rd d => cases d <;> rfl
  | _ => rfl
@[simp] theorem perform_reads (u : Uop) (s : State) : (perform u s).reads = s.reads := by
  cases u with
  | rd d => cases d <;> rfl
  | _ => rfl

@[simp] theorem performAll_nil (s : State) : performAll [] s = s := rfl

@[simp] theorem performAll_cons (u : Uop) (us : List Uop) (s : State) :
    performAll (u :: us) s = performAll us (perform u s) := rfl

theorem performAll_append (us vs : List Uop) (s : State) :
    performAll (us ++ vs) s = performAll vs (performAll us s) := by
  simp [performAll, List.foldl_append]

@[simp] theorem performAll_cmdReg (us : List Uop) (s : State) : (performAll us s).cmdReg = s.cmdReg := by
  induction us generalizing s with
  | nil => rfl
  | cons u us ih => simp [ih]
@[simp] theorem performAll_busy (us : List Uop) (s : State) : (performAll us s).busy = s.busy := by
  induction us generalizing s with
  | nil => rfl
  | cons u us ih => simp [ih]
@[simp] theorem performAll_tSettle (us : List Uop) (s : State) : (performAll us s).tSettle = s.tSettle := by
  induction us generalizing s with
  | nil => rfl
  | cons u us ih => simp [ih]
@[simp] theorem performAll_upc (us : List Uop) (s : State) : (performAll us s).upc = s.upc := by
  induction us generalizing s with
  | nil => rfl
  | cons u us ih => simp [ih]
@[simp] theorem performAll_settle (us : List Uop) (s : State) : (performAll us s).settle = s.settle := by
  induction us generalizing s with
  | nil => rfl
  | cons u us ih => simp [ih]
@[simp] theorem performAll_rxData (us : List Uop) (s : State) : (performAll us s).rxData = s.rxData := by
  induction us generalizing s with
  | nil => rfl
  | cons u us ih => simp [ih]
@[simp] theorem performAll_ovr (us : List Uop) (s : State) : (performAll us s).ovr = s.ovr := by
  induction us generalizing s with
  | nil => rfl
  | cons u us ih => simp [ih]
@[simp] theorem performAll_ill (us : List Uop) (s : State) : (performAll us s).ill = s.ill := by
  induction us generalizing s with
  | nil => rfl
  | cons u us ih => simp [ih]
@[simp] theorem performAll_rst (us : List Uop) (s : State) : (performAll us s).rst = s.rst := by
  induction us generalizing s with
  | nil => rfl
  | cons u us ih => simp [ih]
@[simp] theorem performAll_agenda (us : List Uop) (s : State) : (performAll us s).agenda = s.agenda := by
  induction us generalizing s with
  | nil => rfl
  | cons u us ih => simp [ih]
@[simp] theorem performAll_reads (us : List Uop) (s : State) : (performAll us s).reads = s.reads := by
  induction us generalizing s with
  | nil => rfl
  | cons u us ih => simp [ih]

/-! ### Micro-operations and the sequencer's counters do not see each other -/

theorem perform_withCounters (u : Uop) (s : State) (k : MicroStep) (d : Delay) :
    perform u { s with upc := k, settle := d } = { perform u s with upc := k, settle := d } := by
  cases u with
  | rd dest => cases dest <;> rfl
  | _ => rfl

theorem performAll_withCounters (us : List Uop) (s : State) (k : MicroStep) (d : Delay) :
    performAll us { s with upc := k, settle := d } = { performAll us s with upc := k, settle := d } := by
  induction us generalizing s with
  | nil => rfl
  | cons u us ih => simp only [performAll_cons, perform_withCounters, ih]

/-- The agenda is nothing to a micro-operation. -/
theorem perform_withAgenda (u : Uop) (s : State) (as : List Action) :
    perform u { s with agenda := as } = { perform u s with agenda := as } := by
  cases u with
  | rd dest => cases dest <;> rfl
  | _ => rfl

theorem performAll_withAgenda (us : List Uop) (s : State) (as : List Action) :
    performAll us { s with agenda := as } = { performAll us s with agenda := as } := by
  induction us generalizing s with
  | nil => rfl
  | cons u us ih => simp only [performAll_cons, perform_withAgenda, ih]

/-! ### Conditions -/

/-- With the clock low, `SD` makes no condition (R92). -/
@[simp] theorem sdEvent_clockLow (sda l : Level) : sdEvent false sda l = .sd l := by
  simp [sdEvent]

/-- Without a change of level, `SD` makes no condition (R92). -/
@[simp] theorem sdEvent_same (scl l : Level) : sdEvent scl l l = .sd l := by
  cases scl <;> cases l <;> rfl

/-- What an event of `SD` is, by cases (R92, R95). -/
theorem sdEvent_cases (scl sda l : Level) :
    (scl = true ∧ sda = true ∧ l = false ∧ sdEvent scl sda l = .start) ∨
    (scl = true ∧ sda = false ∧ l = true ∧ sdEvent scl sda l = .stop) ∨
    ((scl = false ∨ sda = l) ∧ sdEvent scl sda l = .sd l) := by
  cases scl <;> cases sda <;> cases l <;> decide

/-! ### Bytes, bit by bit -/

/-- A bit put is the bit read back; the others stay (R134, R140). -/
theorem byteBit_putBit (r : Byte) (i j : Fin 8) (v : Level) :
    byteBit (putBit r i v) j = if j = i then v else byteBit r j := by
  revert r
  fin_cases i <;> fin_cases j <;> cases v <;> intro r <;> simp [byteBit, putBit]

/-! ### One sample -/

/-- A sample takes the first listed level. -/
@[simp] theorem SdaInput.draw_listed (v : Level) (vs : List Level) (n : Nat) :
    SdaInput.draw ⟨v :: vs, n⟩ = (v, ⟨vs, n⟩) := rfl

/-- A sample past the list takes the next free value. -/
@[simp] theorem SdaInput.draw_free (n : Nat) :
    SdaInput.draw ⟨[], n⟩ = (Config.sdaLevel n, ⟨[], n + 1⟩) := rfl

/-- As many draws as there are listed levels take them all. -/
theorem SdaInput.drawMany_listed (vs rest : List Level) (n : Nat) :
    SdaInput.drawMany vs.length ⟨vs ++ rest, n⟩ = (vs, ⟨rest, n⟩) := by
  induction vs with
  | nil => rfl
  | cons v vs ih => simp [SdaInput.drawMany, ih]

/-! ### Events: a micro-operation appends exactly one -/

/-- The event a micro-operation appends (R30, R91 to R93). -/
def uopEvent (u : Uop) (s : State) : LineEvent :=
  match u with
  | .sc l => .sc l
  | .sd l => sdEvent s.sclOut s.sdaOut l
  | .rd _ => .rd s.sdaIn.draw.1

theorem perform_hist (u : Uop) (s : State) : (perform u s).hist = s.hist ++ [uopEvent u s] := by
  cases u with
  | rd d => cases d <;> rfl
  | _ => rfl

theorem performAll_hist (us : List Uop) (s : State) :
    ∃ es, (performAll us s).hist = s.hist ++ es ∧ es.length = us.length := by
  induction us generalizing s with
  | nil => exact ⟨[], by simp⟩
  | cons u us ih =>
    obtain ⟨es, hes, hlen⟩ := ih (perform u s)
    exact ⟨uopEvent u s :: es, by simp [hes, perform_hist], by simp [hlen]⟩

/-! ### Commands -/

/-- Every command's meaning is the one transition of R112 over its micro-program. -/
theorem exec_eq_runCommand (i : Instr) (s : State) : exec i s = runCommand i (microProgram i) s := by
  cases i <;> rfl

theorem runCommand_ready (i : Instr) (us : List Uop) (s : State) (hr : s.rst = false) (hb : s.busy = false) :
    runCommand i us s = .next (complete (performAll us (beginCommand (encode i) s))) := by
  simp [runCommand, hr, hb]

/-- What a command can do: nothing while `rst` is 1, `OVR` alone while busy, its whole effect otherwise. -/
theorem exec_cases (i : Instr) (s : State) :
    (s.rst = true ∧ exec i s = .next s) ∨
    (s.rst = false ∧ s.busy = true ∧ exec i s = .next (raiseOvr s)) ∨
    (s.rst = false ∧ s.busy = false ∧
      exec i s = .next (complete (performAll (microProgram i) (beginCommand (encode i) s)))) := by
  rw [exec_eq_runCommand]
  cases hr : s.rst <;> cases hb : s.busy <;> simp [runCommand, hr, hb]

/-- What `Accept` can do (R102). -/
theorem accept_cases (w : CmdWord) (s : State) :
    (s.busy = true ∧ accept w s = raiseOvr s) ∨
    (s.busy = false ∧ ∃ i, decode w = .command i ∧ accept w s = beginCommand w s) ∨
    (s.busy = false ∧ ∃ op, decode w = .reserved op ∧ accept w s = raiseIll s) := by
  cases hb : s.busy with
  | true => simp [accept, hb]
  | false => cases hd : decode w <;> simp [accept, hb, hd]

end Sys2Proof.Machine
end

