-- ==== Sys2Proof/Laws/PerInstr.lean ====
section
/-! SUPPORT. Facts made for every command, one lemma per constructor. Family `OpcodeField`: the two fields of the encoded word
are the command's opcode and its eight data bits (R71). -/

namespace Sys2Proof.Laws.OpcodeField

/-- The fields of `encode i` are `i`'s opcode and data. -/
def Statement (i : Instr) : Prop := opcodeField (encode i) = i.op ∧ dataField (encode i) = i.data

/-- A word put together from its two fields has those fields. -/
theorem fields_of_append (op : BitVec 4) (d : Byte) :
    opcodeField (op ++ d) = op ∧ dataField (op ++ d) = d := by
  constructor
  · ext j hj
    simp only [opcodeField, BitVec.getElem_extractLsb', BitVec.getLsbD_append]
    rw [if_neg (by omega)]
    simp [hj]
  · ext j hj
    simp only [dataField, BitVec.getElem_extractLsb', BitVec.getLsbD_append]
    rw [if_pos (by omega)]
    simp [hj]

theorem start (data : Byte) : Statement (.start data) := fields_of_append _ _
theorem stop (data : Byte) : Statement (.stop data) := fields_of_append _ _
theorem sendb (b : Byte) : Statement (.sendb b) := fields_of_append _ _
theorem sendba (b : Byte) : Statement (.sendba b) := fields_of_append _ _
theorem recvb (data : Byte) : Statement (.recvb data) := fields_of_append _ _
theorem sendack (a : Level) (dataHi : BitVec 7) : Statement (.sendack a dataHi) := fields_of_append _ _

end Sys2Proof.Laws.OpcodeField
end

