-- ==== Sys2Proof/Laws/Programs.lean ====
section
/-! SUPPORT. What the pieces of the micro-programs do as wholes (one bit sent, eight bits sent, bits received), the lines they
leave, and runs of several commands. -/

namespace Sys2Proof.Machine

/-- The opcode in an encoded command's word (R71, R72). -/
theorem opcodeField_encode (i : Instr) : opcodeField (encode i) = i.op := by
  cases i <;> exact (Sys2Proof.Laws.OpcodeField.fields_of_append _ _).1

/-- No command has more than 28 micro-operations (R5, R100). -/
theorem len_le (i : Instr) : Instr.len i ≤ 28 := by
  cases i <;> simp +decide [Instr.len, microProgram, startProgram, stopProgram, sendackProgram, sendBit, clockPulse,
    sendbProgram, sendbaProgram, recvbProgram, shiftOut, bitOrder, receiveBit]

/-- The step of `UPC` to the next micro-operation does not wrap (R18). -/
theorem upc_succ_le (i : Instr) (u : MicroStep) (h : u.toNat < Instr.len i) : (u + 1).toNat ≤ Instr.len i := by
  have := len_le i
  rw [BitVec.toNat_add]
  simp
  omega

/-- A ready machine runs a command as the one transition of R112. -/
theorem exec_ready (i : Instr) (s : State) (h : s.Ready) :
    exec i s = .next (complete (performAll (microProgram i) (beginCommand (encode i) s))) := by
  rw [exec_eq_runCommand, runCommand_ready _ _ _ h.1 h.2]

/-! ### Bits sent -/

/-- One bit sent, whatever the lines were (R130). -/
theorem performAll_sendBit (l : Level) (s : State) :
    performAll (sendBit l) s = { s with
      sclOut := false, sdaOut := l, session := sessionAfter (sdEvent s.sclOut s.sdaOut l) s.session
      hist := s.hist ++ [sdEvent s.sclOut s.sdaOut l, .sc true, .sc false] } := by
  simp [sendBit, clockPulse, perform, setData, setClock]

/-- Bits sent with the clock low before them: no condition is made (R130, R139). -/
theorem performAll_sendBits_clockLow (bs : List Level) (s : State) (h : s.sclOut = false) :
    performAll (bs.flatMap sendBit) s = { s with
      sdaOut := (bs.getLast?).getD s.sdaOut, hist := s.hist ++ bs.flatMap sentBitEvents } := by
  induction bs generalizing s with
  | nil => simp
  | cons b bs ih =>
    rw [List.flatMap_cons, performAll_append, performAll_sendBit, ih _ rfl]
    simp [List.getLast?_cons, h, sessionAfter, sentBitEvents]

/-- The first 24 micro-operations of both send commands (R130). -/
theorem performAll_shiftOut (b : Byte) (s : State) :
    performAll (shiftOut b) s = { s with
      sclOut := false, sdaOut := b.getLsbD 0, session := sessionAfter (sdEvent s.sclOut s.sdaOut (b.getLsbD 7)) s.session
      hist := s.hist ++ [sdEvent s.sclOut s.sdaOut (b.getLsbD 7), .sc true, .sc false] ++
        [6, 5, 4, 3, 2, 1, 0].flatMap (fun j => sentBitEvents (b.getLsbD j)) } := by
  have h : shiftOut b = sendBit (b.getLsbD 7) ++
      ([6, 5, 4, 3, 2, 1, 0].map b.getLsbD).flatMap sendBit := rfl
  rw [h, performAll_append, performAll_sendBit, performAll_sendBits_clockLow _ _ rfl]
  simp

/-! ### Bits received -/

/-- Bits received with the clock low before them: one draw each, stored at the index named (R134, R140). -/
theorem performAll_receiveBits (is : List (Fin 8)) (s : State) (h : s.sclOut = false) :
    performAll (is.flatMap receiveBit) s = { s with
      hist := s.hist ++ (s.sdaIn.drawMany is.length).1.flatMap receivedBitEvents
      sdaIn := (s.sdaIn.drawMany is.length).2
      rxShift := (is.zip (s.sdaIn.drawMany is.length).1).foldl (fun r iv => putBit r iv.1 iv.2) s.rxShift } := by
  induction is generalizing s with
  | nil => simp [SdaInput.drawMany]
  | cons i is ih =>
    rw [List.flatMap_cons, performAll_append, ih]
    · simp [receiveBit, perform, readData, storeSample, setClock, SdaInput.drawMany, receivedBitEvents, h]
    · simp [receiveBit, perform, readData, storeSample, setClock]

/-- `n` draws are `n` levels. -/
theorem SdaInput.length_drawMany (n : Nat) (inp : SdaInput) : (inp.drawMany n).1.length = n := by
  induction n generalizing inp with
  | zero => rfl
  | succ n ih => simp [SdaInput.drawMany, ih]

/-- Eight levels are the bits of the byte they are put together to (R54, R134). -/
theorem wireBits_byteOfSamples (v7 v6 v5 v4 v3 v2 v1 v0 : Level) :
    wireBits (byteOfSamples [v7, v6, v5, v4, v3, v2, v1, v0]) = [v7, v6, v5, v4, v3, v2, v1, v0] := by
  simp [wireBits, byteOfSamples, bitOrder, byteBit_putBit]

/-! ### The lines after micro-operations -/

/-- What a micro-operation does to the lines and the session, as seen on the wire. -/
def WireView.performed (v : WireView) : Uop → WireView
  | .sc l => { v with scl := l }
  | .sd l => ⟨v.scl, l, sessionAfter (sdEvent v.scl v.sda l) v.session⟩
  | .rd _ => v

theorem perform_wires (u : Uop) (s : State) : (perform u s).wires = s.wires.performed u := by
  cases u with
  | rd d => cases d <;> rfl
  | _ => rfl

/-- The lines after a program depend on the lines before it and on the program alone (R9, R34). -/
theorem performAll_wires (us : List Uop) (s : State) : (performAll us s).wires = us.foldl WireView.performed s.wires := by
  induction us generalizing s with
  | nil => rfl
  | cons u us ih => rw [performAll_cons, ih, perform_wires, List.foldl_cons]

/-! ### Commands one after the other -/

/-- A sequence in two parts. -/
theorem execAll_append (a b : List Instr) (s t : State) (h : execAll a s = .next t) :
    execAll (a ++ b) s = execAll b t := by
  induction a generalizing s with
  | nil =>
    obtain rfl : s = t := by simpa [execAll] using h
    rfl
  | cons i a ih =>
    simp only [execAll, List.cons_append] at h ⊢
    cases hx : exec i s with
    | next u => simp only [hx] at h ⊢; exact ih _ h
    | fault f => simp [hx] at h
    | refused r => simp [hx] at h

/-! ### The echo slave's memory -/

/-- A stored byte is read back at the pointer it was stored at. -/
theorem EchoSlave.read_store (b : Byte) (sl : EchoSlave) : (sl.store b).read sl.ptr = b :=
  Vector.getElem_set_self _

/-- Everywhere else the memory reads as before. -/
theorem EchoSlave.read_store_ne (b p : Byte) (sl : EchoSlave) (h : p ≠ sl.ptr) : (sl.store b).read p = sl.read p :=
  Vector.getElem_set_ne sl.ptr.isLt p.isLt fun e => h (BitVec.eq_of_toNat_eq e.symm)

end Sys2Proof.Machine
end

