-- ==== Sys2Proof/Laws/Step.lean ====
section
/-! SUPPORT. What a tick, a host access and a step can do, said once each. -/

namespace Sys2Proof.Machine

/-- What a tick can do (R103). -/
theorem tick_cases (s t : State) (h : tick s = .next t) :
    (t = s ∧ (s.rst = true ∨ s.busy = false)) ∨
    (s.rst = false ∧ s.busy = true ∧ s.settle ≠ 0 ∧ t = { s with settle := s.settle - 1 }) ∨
    (s.rst = false ∧ s.busy = true ∧ s.settle = 0 ∧ ∃ i, decode s.cmdReg = .command i ∧
      ((∃ u, (microProgram i)[s.upc.toNat]? = some u ∧ s.upc.toNat < Instr.len i ∧
          t = { perform u s with upc := s.upc + 1, settle := s.tSettle }) ∨
       (Instr.len i ≤ s.upc.toNat ∧ t = complete s))) := by
  unfold tick at h
  split at h
  · simp_all
  · split at h
    · simp_all
    · split at h
      · simp_all
      · cases hd : decode s.cmdReg with
        | reserved op => simp [hd] at h
        | command i =>
          simp only [hd, Host.Outcome.next.injEq] at h
          refine .inr (.inr ⟨by simp_all, by simp_all, by simp_all, i, rfl, ?_⟩)
          unfold microStep at h
          cases hu : (microProgram i)[s.upc.toNat]? with
          | some u =>
            obtain ⟨hlt, -⟩ := List.getElem?_eq_some_iff.mp hu
            exact .inl ⟨u, rfl, hlt, by simp only [hu] at h; exact h.symm⟩
          | none => exact .inr ⟨List.getElem?_eq_none_iff.mp hu, by simp only [hu] at h; exact h.symm⟩

/-- What a host write can do (R43, R44, R47, R49, R51). -/
theorem hostWrite_cases (off : Nat) (v : RegWord) (s : State) :
    hostWrite off v s = s ∨
    (s.rst = false ∧ s.busy = true ∧ hostWrite off v s = raiseOvr s) ∨
    (s.rst = false ∧ s.busy = false ∧ hostWrite off v s = raiseIll s) ∨
    (s.rst = false ∧ s.busy = false ∧ off = 0x00 ∧ ∃ i, decode (cmdOfWrite v) = .command i ∧
      hostWrite off v s = beginCommand (cmdOfWrite v) s) ∨
    (s.rst = false ∧ off = 0x04 ∧ hostWrite off v s = clearSticky v s) ∨
    (s.rst = false ∧ s.busy = false ∧ off = 0x0C ∧ hostWrite off v s = { s with tSettle := v.extractLsb' 0 16 }) := by
  cases hr : s.rst with
  | true => exact .inl (by simp [hostWrite, hr])
  | false =>
    unfold hostWrite
    simp only [hr, Bool.false_eq_true, ↓reduceIte]
    split
    · rcases accept_cases (cmdOfWrite v) s with ⟨hb, ha⟩ | ⟨hb, i, hd, ha⟩ | ⟨hb, op, hd, ha⟩ <;> simp_all
    · simp_all
    · unfold writeTSettle
      cases hb : s.busy <;> simp_all
    · exact .inl rfl

/-- What a host read can do (R42): the read value is logged, and only for `LINES` is the input drawn. -/
theorem hostRead_cases (off : Nat) (s : State) :
    ∃ inp w, hostRead off s = { s with sdaIn := inp, reads := s.reads ++ [(off, w)] } ∧ (off ≠ 0x10 → inp = s.sdaIn) := by
  unfold hostRead
  split
  · exact ⟨_, _, rfl, by simp_all⟩
  · exact ⟨_, _, rfl, by simp_all⟩

/-- What a change of `rst` can do (R190). -/
theorem setRst_cases (l : Level) (s : State) :
    (l = true ∧ s.rst = false ∧ setRst l s = { resetStep s with rst := true }) ∨
    ((l = false ∨ s.rst = true) ∧ setRst l s = { s with rst := l }) := by
  cases l <;> cases hr : s.rst <;> simp [setRst, hr]

/-- A host access that is admitted. -/
theorem admitted_next (off bytes : Nat) (a t : State) (h : admitted off bytes a = .next t) : t = a := by
  unfold admitted at h
  split at h <;> simp_all

/-- What a step can do: one case for each kind of action, the tick being what happens where none is listed (R101). A poll that
finds `BUSY = 1` is a tick that leaves the poll at the head of the agenda. -/
theorem step_cases (s t : State) (h : step s = .next t) :
    (∃ b as, tick { s with agenda := as } = .next t ∧ ((b = false ∧ as = s.agenda.tail) ∨ (b = true ∧ as = s.agenda))) ∨
    (∃ rest, (s.agenda = .poll :: rest ∧ s.busy = false) ∧ t = { s with agenda := rest }) ∨
    (∃ off bytes rest, s.agenda = .read off bytes :: rest ∧ t = hostRead off { s with agenda := rest }) ∨
    (∃ off bytes v rest, s.agenda = .write off bytes v :: rest ∧ accessRefusal off bytes = none ∧
      t = hostWrite off v { s with agenda := rest }) ∨
    (∃ l rest, s.agenda = .rst l :: rest ∧ t = setRst l { s with agenda := rest }) ∨
    (∃ v i rest, s.agenda = .command v :: rest ∧ decode (cmdOfWrite v) = .command i ∧
      exec i { s with agenda := rest } = .next t) ∨
    (∃ v op rest, s.agenda = .command v :: rest ∧ decode (cmdOfWrite v) = .reserved op ∧
      t = hostWrite 0x00 v { s with agenda := rest }) := by
  unfold step at h
  cases ha : s.agenda with
  | nil =>
    simp only [ha] at h
    exact .inl ⟨false, [], by rw [← ha]; exact h, .inl ⟨rfl, rfl⟩⟩
  | cons a rest =>
    simp only [ha] at h
    cases a with
    | tick => exact .inl ⟨false, rest, h, .inl ⟨rfl, rfl⟩⟩
    | read off bytes => exact .inr (.inr (.inl ⟨off, bytes, rest, rfl, admitted_next _ _ _ _ h⟩))
    | write off bytes v =>
      have hn : accessRefusal off bytes = none := by
        simp only [act, admitted] at h
        split at h <;> simp_all
      exact .inr (.inr (.inr (.inl ⟨off, bytes, v, rest, rfl, hn, admitted_next _ _ _ _ h⟩)))
    | rst l =>
      simp only [act, Host.Outcome.next.injEq] at h
      exact .inr (.inr (.inr (.inr (.inl ⟨l, rest, rfl, h.symm⟩))))
    | poll =>
      simp only [act, pollStep] at h
      cases hb : s.busy with
      | false =>
        simp only [hb, Bool.false_eq_true, ↓reduceIte, Host.Outcome.next.injEq] at h
        exact .inr (.inl ⟨rest, ⟨rfl, rfl⟩, h.symm⟩)
      | true =>
        simp only [hb, ↓reduceIte] at h
        exact .inl ⟨true, .poll :: rest, h, .inr ⟨rfl, rfl⟩⟩
    | command v =>
      simp only [act, commandStep] at h
      cases hd : decode (cmdOfWrite v) with
      | command i =>
        simp only [hd] at h
        exact .inr (.inr (.inr (.inr (.inr (.inl ⟨v, i, rest, rfl, hd, h⟩)))))
      | reserved op =>
        simp only [hd, Host.Outcome.next.injEq] at h
        exact .inr (.inr (.inr (.inr (.inr (.inr ⟨v, op, rest, rfl, hd, h.symm⟩)))))

/-- A poll that finds `BUSY = 1` is a tick; the poll stays at the head of the agenda (R160). -/
theorem step_poll_busy (s : State) (rest : List Action) (ha : s.agenda = .poll :: rest) (hb : s.busy = true) :
    step s = tick s := by
  cases s
  simp_all [step, act, pollStep]

/-- The host's run, one step on: by what the step answers. -/
theorem hostRun_succ (M : Host.Core) (n : Nat) (s : M.State) :
    (∀ t, M.step s = .next t → Host.Core.run M (n + 1) s = Host.Core.run M n t) ∧
    (∀ f, M.step s = .fault f → Host.Core.run M (n + 1) s = .fault f) ∧
    (∀ r, M.step s = .refused r → Host.Core.run M (n + 1) s = .refused r) := by
  refine ⟨fun t h => ?_, fun f h => ?_, fun r h => ?_⟩ <;> simp [Host.Core.run, h]

/-- A run is the host's run of `core`. -/
theorem run_eq_core_run (n : Nat) (s : State) : run n s = Host.Core.run core n s := by
  induction n generalizing s with
  | zero => rfl
  | succ n ih =>
    cases hs : step s with
    | next t =>
      have e : run (n + 1) s = run n t := by simp [run, hs]
      exact e.trans ((ih t).trans ((hostRun_succ core n s).1 t hs).symm)
    | fault f =>
      have e : run (n + 1) s = .fault f := by simp [run, hs]
      exact e.trans ((hostRun_succ core n s).2.1 f hs).symm
    | refused r =>
      have e : run (n + 1) s = .refused r := by simp [run, hs]
      exact e.trans ((hostRun_succ core n s).2.2 r hs).symm

@[simp] theorem run_zero (s : State) : run 0 s = .next s := rfl

/-- One step of a run that goes on. -/
theorem run_succ_next (n : Nat) (s t : State) (h : step s = .next t) : run (n + 1) s = run n t := by
  simp [run, h]

/-- A run of one step is that step. -/
theorem run_one (s : State) : run 1 s = step s := by
  simp only [run]
  cases step s <;> rfl

/-- A run of `m + n` steps is a run of `m` and then of `n`. -/
theorem run_add (m n : Nat) (s t : State) (h : run m s = .next t) : run (m + n) s = run n t := by
  induction m generalizing s with
  | zero =>
    obtain rfl : s = t := by simpa using h
    rw [Nat.zero_add]
  | succ m ih =>
    rw [Nat.succ_add]
    cases hs : step s with
    | next t' =>
      rw [run_succ_next _ _ _ hs] at h ⊢
      exact ih t' h
    | fault f => simp [run, hs] at h
    | refused r => simp [run, hs] at h

end Sys2Proof.Machine
end

