-- ==== Sys2Proof/Tests/Slice0.lean ====
section
/-! SUPPORT. The model's own tests: words written out from the encoding rules, the checks of WellFormed on ill-formed terms, one
step of each command against the derived vectors of spec/95_test_vectors.md (the name in each docstring is the vector's), and
for each statement with hypotheses a state and operands that meet them. -/

namespace Sys2Proof.Tests

open Sys2Proof.Machine

/-- What a step leaves, as far as `f` shows it; nothing where it stops. -/
def after {α : Type} (o : Host.Outcome State Fault Refusal) (f : State → α) : Option α :=
  match o with
  | .next t => some (f t)
  | .fault _ | .refused _ => none

/-- The lines, the session and the events added to an empty history. -/
def wiresAndEvents (s : State) : WireView × List LineEvent := (s.wires, s.hist)

/-! ### States the tests start from -/

/-- After reset, with a settle delay of 3 ticks. -/
def quiet : State := { State.reset with tSettle := 3 }

/-- As after a `START` (spec/95 section 2.5), with an empty history and listed samples. -/
def inSession (samples : List Level) : State :=
  { quiet with sclOut := false, sdaOut := false, session := true, sdaIn := ⟨samples, 0⟩ }

/-- AC4: a `START`, one tick in, `T = 3`. -/
def oneTickIn : State := { quiet with cmdReg := 0x100#12, busy := true, upc := 1, settle := 3, hist := [.sd true] }

/-- The same `START`, its delay over: the next tick performs micro-step 1. -/
def delayOver : State := { oneTickIn with settle := 0 }

/-- The same `START` after its last delay: the next tick completes it. -/
def lastPhase : State :=
  { quiet with
    sclOut := false, sdaOut := false, session := true, cmdReg := 0x100#12, busy := true, upc := 4, settle := 0
    hist := [.sd true, .sc true, .start, .sc false] }

/-- A state with all three sticky flags up (HR8: `STATUS = 0x00000074`). -/
def allFlags : State := { quiet with nackF := true, ovr := true, ill := true, hist := [.rd true] }

/-- `rst` held at 1. -/
def held : State := { State.reset with rst := true }

/-! ### Decoding: words written out bit by bit from R71, R72, R73 -/

/-- EN1: opcode 0001, data 00000000. -/
theorem test_decode_start : decode 0b000100000000#12 = .command (.start 0x00#8) := by decide

/-- EN3: opcode 0010. -/
theorem test_decode_stop : decode 0b001000000000#12 = .command (.stop 0x00#8) := by decide

/-- EN4: opcode 0011, data 10100101. -/
theorem test_decode_sendb : decode 0b001110100101#12 = .command (.sendb 0xA5#8) := by decide

/-- EN6: opcode 0100, data 11010000. -/
theorem test_decode_sendba : decode 0b010011010000#12 = .command (.sendba 0xD0#8) := by decide

/-- EN9: opcode 0101, ignored data 11000011. -/
theorem test_decode_recvb : decode 0b010111000011#12 = .command (.recvb 0xC3#8) := by decide

/-- EN12: opcode 0110, data bit 0 clear, the ignored bits set. -/
theorem test_decode_sendack : decode 0b011011111110#12 = .command (.sendack false 0x7F#7) := by decide

/-- EN14, EN15: reserved opcodes. -/
theorem test_decode_reserved :
    decode 0x0FF#12 = .reserved 0x0#4 ∧ decode 0x700#12 = .reserved 0x7#4 ∧ decode 0xFFF#12 = .reserved 0xF#4 := by decide

/-- EN17: bits 31:12 of a write of `CMD` are ignored. -/
theorem test_decode_write : decode (cmdOfWrite 0xFFFFF6FF#32) = .command (.sendack true 0x7F#7) := by decide

/-- EN11, by the encoder. -/
theorem test_encode_sendack : encode (.sendack true 0) = 0x601#12 := by decide

/-- AD2 through the assembler. -/
theorem test_assemble_sendaddr : (Asm.sendaddr 0x68 .read).assemble = some [0x4D1#12] := by decide

/-! ### WellFormed: each check refuses an ill-formed term -/

/-- R74: an assembler leaves ignored bits zero. -/
theorem test_wf_ignored_bits :
    Instr.isCanonical (.start 0xFF#8) = false ∧ Instr.isCanonical (.stop 0x01#8) = false ∧
    Instr.isCanonical (.recvb 0xC3#8) = false ∧ Instr.isCanonical (.sendack false 0x7F#7) = false := by decide

/-- R79, R80: operands out of range. -/
theorem test_wf_operands :
    (Asm.sendb 256).wellFormed = false ∧ (Asm.sendba 256).wellFormed = false ∧ (Asm.sendack 2).wellFormed = false ∧
    (Asm.sendaddr 128 .write).wellFormed = false ∧ (Asm.sendb 256).assemble = none := by decide

/-- R52, V8: a narrow, a misaligned and an outside access. -/
theorem test_wf_access : widthOk 2 = false ∧ alignedOk 0x06 = false ∧ insideBlock 0x20 = false := by decide

/-- R153: no `STOP`, no `START`, a `RECVB` that is not answered. -/
theorem test_wf_grammar :
    isTransaction [.start 0, .sendba 0xD0#8] = false ∧ isTransaction [.sendba 0xD0#8, .stop 0] = false ∧
    isTransaction [.start 0, .sendba 0xD1#8, .recvb 0, .stop 0] = false := by decide

/-- R153: inside the grammar but not the documented use: no address, the wrong direction, a last answer of `SENDACK 0`. -/
theorem test_wf_documented :
    isDocumentedTransaction [.start 0, .recvb 0, .sendack true 0, .stop 0] = false ∧
    isDocumentedTransaction [.start 0, .sendba 0xD1#8, .sendba 0x00#8, .stop 0] = false ∧
    isDocumentedTransaction [.start 0, .sendba 0xD1#8, .recvb 0, .sendack false 0, .stop 0] = false ∧
    isWellFormedProgram [[.start 0, .stop 0], [.stop 0]] = false := by decide

/-! ### Commands, one step each -/

/-- FR1, and FR2's repeated start. -/
theorem test_start : after (exec (.start 0) quiet) wiresAndEvents =
      some (⟨false, false, true⟩, [.sd true, .sc true, .start, .sc false]) ∧
    after (exec (.start 0) (inSession [])) wiresAndEvents =
      some (⟨false, false, true⟩, [.sd true, .sc true, .start, .sc false]) := by decide

/-- FR4: with the clock high and data low a stop condition comes first. -/
theorem test_start_from_data_low :
    after (exec (.start 0) { quiet with sdaOut := false, session := true }) wiresAndEvents =
      some (⟨false, false, true⟩, [.stop, .sc true, .start, .sc false]) := by decide

/-- FR5. -/
theorem test_stop : after (exec (.stop 0) (inSession [])) wiresAndEvents =
    some (⟨true, true, false⟩, [.sd false, .sc true, .stop]) := by decide

/-- FR7, MU1: a `STOP` on an idle bus makes an empty transaction. -/
theorem test_stop_idle : after (exec (.stop 0) quiet) wiresAndEvents =
    some (⟨true, true, false⟩, [.start, .sc true, .stop]) := by decide

/-- BY1: 26 events, bits 1 0 1 0 0 1 0 1, then the uninterpreted pulse. -/
theorem test_sendb : after (exec (.sendb 0xA5#8) (inSession [])) wiresAndEvents =
    some (⟨false, true, true⟩,
      [.sd true, .sc true, .sc false, .sd false, .sc true, .sc false, .sd true, .sc true, .sc false,
       .sd false, .sc true, .sc false, .sd false, .sc true, .sc false, .sd true, .sc true, .sc false,
       .sd false, .sc true, .sc false, .sd true, .sc true, .sc false] ++ [.sc true, .sc false]) := by decide

/-- MU2: from idle lines the first bit of `SENDB 0x00` is a start condition; `STATUS` is 0x00000006. -/
theorem test_sendb_idle : after (exec (.sendb 0x00#8) quiet) (fun t => (t.hist.take 4, t.wires, readValue 0x04 false t)) =
    some ([.start, .sc true, .sc false, .sd false], ⟨false, false, true⟩, 0x00000006#32) := by decide

/-- BY5: not-acknowledged; the last four events, `STATUS` 0x00000016. -/
theorem test_sendba : after (exec (.sendba 0xFF#8) (inSession [true])) (fun t => (t.hist.drop 24, readValue 0x04 false t)) =
    some ([.sd true, .sc true, .rd true, .sc false], 0x00000016#32) := by decide

/-- BY6: `NACKF` is sticky, `ACKIN` is not: an acknowledged byte after a not-acknowledged one leaves `STATUS` 0x00000012. -/
theorem test_sendba_sticky :
    after (exec (.sendba 0xAA#8) { inSession [false] with nackF := true }) (fun t => (t.ackIn, readValue 0x04 false t)) =
    some (false, 0x00000012#32) := by decide

/-- BY7: samples 1,1,0,0,0,0,1,1 give 0xC3. -/
theorem test_recvb :
    after (exec (.recvb 0) (inSession [true, true, false, false, false, false, true, true]))
      (fun t => (t.rxData, t.hist.take 4, t.hist.length, readValue 0x08 false t)) =
    some (0xC3#8, [.sd true, .sc true, .rd true, .sc false], 25, 0x000000C3#32) := by decide

/-- BY10: the first sample is bit 7. -/
theorem test_recvb_first_sample :
    after (exec (.recvb 0) (inSession [true, false, false, false, false, false, false, false])) State.rxData =
    some 0x80#8 := by decide

/-- BY11, BY12. -/
theorem test_sendack : after (exec (.sendack true 0) (inSession [])) wiresAndEvents =
      some (⟨false, true, true⟩, [.sd true, .sc true, .sc false]) ∧
    after (exec (.sendack false 0) (inSession [])) wiresAndEvents =
      some (⟨false, false, true⟩, [.sd false, .sc true, .sc false]) := by decide

/-- MU4: from idle lines `SENDACK 0` makes a start condition. -/
theorem test_sendack_idle : after (exec (.sendack false 0) quiet) wiresAndEvents =
    some (⟨false, false, true⟩, [.start, .sc true, .sc false]) := by decide

/-! ### Micro-operations, ticks and the host -/

/-- LD5, LD6, LD8. -/
theorem test_set_data :
    wiresAndEvents (perform (.sd false) { quiet with session := true }) = (⟨true, false, true⟩, [.start]) ∧
    wiresAndEvents (perform (.sd true) { quiet with sdaOut := false, session := true }) = (⟨true, true, false⟩, [.stop]) ∧
    wiresAndEvents (perform (.sd false) { quiet with sclOut := false, session := true }) =
      (⟨false, false, true⟩, [.sd false]) := by decide

/-- TM2, tick 4 (with `T = 3`): the delay over, micro-step 1 is performed. -/
theorem test_tick_performs : after (tick delayOver) (fun t => (t.busy, t.upc, t.settle, t.hist)) =
    some (true, 2#5, 3#16, [.sd true, .sc true]) := by decide

/-- TM2, tick 2: a waiting tick counts down. -/
theorem test_tick_waits : after (tick oneTickIn) (fun t => (t.busy, t.upc, t.settle, t.hist)) =
    some (true, 1#5, 2#16, [.sd true]) := by decide

/-- TM2, tick 13: completion; `STATUS` 0x00000006. -/
theorem test_tick_completes : after (tick lastPhase) (fun t => (t.busy, t.upc, readValue 0x04 false t)) =
    some (false, 0#5, 0x00000006#32) := by decide

/-- The phases of those three states, and of an idle one (R109). -/
theorem test_phases : delayOver.phase = some .exec ∧ oneTickIn.phase = some .wait ∧ lastPhase.phase = some .done ∧
    quiet.phase = some .idle := by decide

/-- TM1: durations of `SENDBA` and `RECVB`, at `T = 9` and `T = 65535`. -/
theorem test_durations : ticksOf (.sendba 0) 9 = 281 ∧ ticksOf (.recvb 0) 65535 = 1638401 := by decide

/-- AC1: acceptance moves no line. -/
theorem test_accept : (hostWrite 0x00 0x100#32 quiet).busy = true ∧ (hostWrite 0x00 0x100#32 quiet).hist = [] ∧
    readValue 0x04 false (hostWrite 0x00 0x100#32 quiet) = 0x00000005#32 := by decide

/-- AC2, AC5: a reserved opcode sets `ILL` while idle and `OVR` while busy. -/
theorem test_reserved : readValue 0x04 false (hostWrite 0x00 0x700#32 quiet) = 0x00000044#32 ∧
    (hostWrite 0x00 0x700#32 oneTickIn).ill = false ∧ (hostWrite 0x00 0x700#32 oneTickIn).ovr = true := by decide

/-- AC4: a command while busy is lost. -/
theorem test_overrun : after (exec (.stop 0) oneTickIn) (fun t => (t.ovr, t.cmdReg, t.upc, t.settle)) =
    some (true, 0x100#12, 1#5, 3#16) := by decide

/-- HR6, HR7. -/
theorem test_settle_delay_write : (hostWrite 0x0C 0x0001004F#32 quiet).tSettle = 0x004F#16 ∧
    (hostWrite 0x0C 5#32 oneTickIn).tSettle = 3#16 := by decide

/-- HR8, HR10. -/
theorem test_status_write : readValue 0x04 false (hostWrite 0x04 0x10#32 allFlags) = 0x00000064#32 ∧
    readValue 0x04 false (hostWrite 0x04 0xFFFFFF8F#32 allFlags) = 0x00000074#32 := by decide

/-- HR4: `LINES` after a `START`, `sda_i = 1`. -/
theorem test_lines_read : (hostRead 0x10 (inSession [true])).reads = [(0x10, 0x00000004#32)] := by decide

/-- HR13: what a model refuses. -/
theorem test_refused_access : accessRefusal 0x00 2 = some (.accessWidth 2) ∧ accessRefusal 0x02 4 = some (.misaligned 0x02) ∧
    accessRefusal 0x20 4 = some (.outsideBlock 0x20) ∧ accessRefusal 0x1C 4 = none := by decide

/-- RS1: a reset in mid-command records `RESET`, not `STOP`, and abandons the command; `STATUS` 0x00000004. -/
theorem test_reset_step :
    after (step { lastPhase with agenda := [.rst true] }) (fun t => (t.wires, t.hist.drop 4)) =
      some (⟨true, true, false⟩, [.reset]) ∧
    after (step { lastPhase with agenda := [.rst true] }) (fun t => (t.busy, t.cmdReg, readValue 0x04 false t)) =
      some (false, 0x000#12, 0x00000004#32) := by decide

/-- A word placed by `withFetchWord` is the next step's command. -/
theorem test_fetch_word : decodeTableWord 12 0x100 = some (.start 0) ∧
    after (step (State.reset.withFetchWord 12 0x100)) wiresAndEvents =
      some (⟨false, false, true⟩, [.sd true, .sc true, .start, .sc false]) := by decide

/-- HS2, HS4. -/
theorem test_axis_value : axisValue 0xFF#8 0xFE#8 = -2 ∧ axisValue 0x7F#8 0xFF#8 = 32767 := by decide

/-! ### Witnesses: states and operands that meet the hypotheses of each statement that has some -/

theorem quiet_ready : quiet.Ready := ⟨rfl, rfl⟩
theorem quiet_idle : quiet.Idle := ⟨quiet_ready, rfl, rfl, rfl⟩
theorem inSession_ready (samples : List Level) : (inSession samples).Ready := ⟨rfl, rfl⟩

theorem witness_ResetStepFromAnyState : oneTickIn.rst = false := rfl

theorem witness_HeldResetFreezesTheBlock : held.rst = true ∧ held.registers = Registers.reset := ⟨rfl, rfl⟩

theorem witness_OnlyRstResets : ∃ t, step { oneTickIn with agenda := [.rst true] } = .next t ∧
    t.hist.count .reset ≠ oneTickIn.hist.count .reset := ⟨_, rfl, by decide⟩

/-- The extreme words of a family, one canonical and one not. -/
theorem witness_DecodeOfEncodeIsIdentity : decode 0x6FF#12 = .command (.sendack true 0x7F#7) ∧
    decode 0x601#12 = .command (.sendack true 0x00#7) := by decide

theorem witness_OpcodeMapSelectsTheCommand : ∃ r ∈ opcodeMap, r.selects 0x6FF#12 = true := by decide

theorem witness_IgnoredBitsAreStoredAndHaveNoEffect : quiet.Ready := quiet_ready

/-- One state for each of the three cases of `SD`. -/
theorem witness_SetDataMicroOperation : (quiet.sclOut = true ∧ quiet.sdaOut = true) ∧
    ({ quiet with sdaOut := false }.sclOut = true ∧ { quiet with sdaOut := false }.sdaOut = false) ∧
    (inSession []).sclOut = false ∧ quiet.sdaOut = true := ⟨⟨rfl, rfl⟩, ⟨rfl, rfl⟩, rfl, rfl⟩

/-- A listed sample and a free one. -/
theorem witness_ReadDataMicroOperation : (inSession [true]).sdaIn.draw = (true, ⟨[], 0⟩) ∧
    quiet.sdaIn.draw = (Config.sdaLevel 0, ⟨[], 1⟩) := ⟨rfl, rfl⟩

theorem witness_SamplesAreFreshDraws : (inSession [true, false]).sdaIn.upcoming = true :: false :: [] := rfl

/-- A state and a write for each of the three cases of `Accept`. -/
theorem witness_AcceptCases : oneTickIn.rst = false ∧ oneTickIn.busy = true ∧ quiet.rst = false ∧ quiet.busy = false ∧
    decode ((0x1FF#32).extractLsb' 0 12) = .command (.start 0xFF#8) ∧
    decode ((0x5C3#32).extractLsb' 0 12) = .command (.recvb 0xC3#8) ∧
    decode ((0x700#32).extractLsb' 0 12) = .reserved 0x7#4 := by decide

/-- The opcodes at the ends of the reserved ranges. -/
theorem witness_ReservedOpcodeSetsIllOnly : decode (cmdOfWrite 0x0FF#32) = .reserved 0x0#4 ∧
    decode (cmdOfWrite 0x700#32) = .reserved 0x7#4 ∧ decode (cmdOfWrite 0xFFF#32) = .reserved 0xF#4 ∧
    quiet.rst = false ∧ quiet.busy = false ∧ oneTickIn.rst = false ∧ oneTickIn.busy = true := by decide

theorem witness_BusyRefusesCommandsAndDelayWrites : oneTickIn.rst = false ∧ oneTickIn.busy = true := ⟨rfl, rfl⟩

/-- Micro-steps 0, 22 and 23: one of each shape at the ends of the range. -/
theorem witness_MicroProgramTable : (microProgram (.sendb 0xA5#8))[0]? = some (.sd true) ∧
    (microProgram (.sendb 0xA5#8))[22]? = some (.sc true) ∧ (microProgram (.sendb 0xA5#8))[23]? = some (.sc false) := by decide

/-- A state for each of the four branches of `Tick`. -/
theorem witness_TickCases : quiet.rst = false ∧ quiet.busy = false ∧
    (oneTickIn.rst = false ∧ oneTickIn.busy = true ∧ oneTickIn.settle ≠ 0) ∧
    (delayOver.rst = false ∧ delayOver.busy = true ∧ delayOver.settle = 0 ∧
      decode delayOver.cmdReg = .command (.start 0) ∧ delayOver.upc.toNat < (microProgram (.start 0)).length) ∧
    (lastPhase.rst = false ∧ lastPhase.busy = true ∧ lastPhase.settle = 0 ∧
      decode lastPhase.cmdReg = .command (.start 0) ∧ (microProgram (.start 0)).length ≤ lastPhase.upc.toNat) := by decide

/-- A state that meets the invariant in each of the four phases. -/
theorem witness_PhasesOfTheStateMachine :
    (quiet.Inv ∧ quiet.rst = false ∧ quiet.phase = some .idle) ∧
    (delayOver.Inv ∧ delayOver.rst = false ∧ delayOver.phase = some .exec) ∧
    (oneTickIn.Inv ∧ oneTickIn.rst = false ∧ oneTickIn.phase = some .wait) ∧
    (lastPhase.Inv ∧ lastPhase.rst = false ∧ lastPhase.phase = some .done) := by
  refine ⟨⟨⟨?_, ?_, ?_, ?_, ?_⟩, rfl, rfl⟩, ⟨⟨?_, fun _ => ⟨.start 0, ?_⟩, ?_, ?_, ?_⟩, rfl, rfl⟩,
    ⟨⟨?_, fun _ => ⟨.start 0, ?_⟩, ?_, ?_, ?_⟩, rfl, rfl⟩, ⟨⟨?_, fun _ => ⟨.start 0, ?_⟩, ?_, ?_, ?_⟩, rfl, rfl⟩⟩ <;>
  first | decide | exact fun h => absurd h (by decide)

/-- A `START` and a `RECVB` in their last phase. -/
theorem witness_CompletionEffect : (lastPhase.rst = false ∧ lastPhase.busy = true ∧ lastPhase.settle = 0 ∧
      decode lastPhase.cmdReg = .command (.start 0) ∧ lastPhase.upc.toNat = Instr.len (.start 0)) ∧
    decode 0x500#12 = .command (.recvb 0) ∧ (25#5).toNat = Instr.len (.recvb 0) := by decide

theorem witness_IdleTicksChangeNothing : quiet.busy = false ∧ quiet.agenda = [] := ⟨rfl, rfl⟩

/-- The first and the last tick before completion of a `START` with `T = 3`. -/
theorem witness_TimelineOfACommand : quiet.Ready ∧ quiet.agenda = [] ∧
    0 < ticksOf (.start 0) quiet.tSettle ∧ 0 = (0 + quiet.tSettle.toNat) / (quiet.tSettle.toNat + 1) ∧
    16 < ticksOf (.start 0) quiet.tSettle ∧ 4 = (16 + quiet.tSettle.toNat) / (quiet.tSettle.toNat + 1) :=
  ⟨quiet_ready, rfl, by decide, by decide, by decide, by decide⟩

theorem witness_EveryCommandCompletesOnTime : quiet.Ready ∧ quiet.agenda = [] ∧ 16 < ticksOf (.start 0) quiet.tSettle :=
  ⟨quiet_ready, rfl, by decide⟩

theorem witness_CommandLevelViewIsTheTickLevelRun : quiet.Ready ∧ quiet.agenda = [] := ⟨quiet_ready, rfl⟩

theorem witness_PollingIdiomIsOneTransition : quiet.Ready := quiet_ready

/-- A busy state with each kind of host action at its head steps on; `BUSY` falls by completion, and by reset. -/
theorem witness_NoCancellation : oneTickIn.busy = true ∧
    (∃ t, step { oneTickIn with agenda := [.read 0x10 4] } = .next t) ∧
    (∃ t, step { oneTickIn with agenda := [.write 0x0C 4 5#32] } = .next t) ∧
    (∃ t, step { oneTickIn with agenda := [.command 0x200#32] } = .next t) ∧
    (∃ t, step { oneTickIn with agenda := [.command 0x700#32] } = .next t) ∧
    (∃ t, step { oneTickIn with agenda := [.poll] } = .next t) ∧
    lastPhase.busy = true ∧ (∃ t, step lastPhase = .next t ∧ t.busy = false) ∧
    ∃ t, step { oneTickIn with agenda := [.rst true] } = .next t ∧ t.busy = false :=
  ⟨rfl, ⟨_, rfl⟩, ⟨_, rfl⟩, ⟨_, rfl⟩, ⟨_, rfl⟩, ⟨_, rfl⟩, rfl, ⟨_, rfl, rfl⟩, ⟨_, rfl, rfl⟩⟩

theorem witness_StatusWriteClears : allFlags.rst = false := rfl

theorem witness_SettleDelayAccess : quiet.rst = false ∧ quiet.busy = false ∧ oneTickIn.rst = false ∧ oneTickIn.busy = true :=
  ⟨rfl, rfl, rfl, rfl⟩

theorem witness_LinesRead : (inSession [true]).sdaIn.draw = (true, ⟨[], 0⟩) := rfl

/-- The offsets at the ends of the gap between `LINES` and the end of the block. -/
theorem witness_UnmappedOffsets : ∀ off ∈ [0x14, 0x1C],
    off % 4 = 0 ∧ off ≠ 0x00 ∧ off ≠ 0x04 ∧ off ≠ 0x08 ∧ off ≠ 0x0C ∧ off ≠ 0x10 := by decide

theorem witness_ReadsChangeNoState :
    (∃ t, step { oneTickIn with agenda := [.read 0x10 4] } = .next t) ∧
    ∃ t, step { oneTickIn with agenda := [.read 0x08 4, .tick] } = .next t := ⟨⟨_, rfl⟩, ⟨_, rfl⟩⟩

/-- The last offset of the block is admitted, the next is not; nor a narrow or a misaligned access. -/
theorem witness_OnlyWordAccessesAreAdmitted : (4 = 4 ∧ 0x1C % 4 = 0 ∧ 0x1C < 0x20) ∧ ¬(4 = 4 ∧ 0x20 % 4 = 0 ∧ 0x20 < 0x20) ∧
    ¬(2 = 4 ∧ 0x00 % 4 = 0 ∧ 0x00 < 0x20) ∧ ¬(4 = 4 ∧ 0x02 % 4 = 0 ∧ 0x02 < 0x20) := by decide

theorem witness_StepRunsTheDecodedCommand :
    { quiet with agenda := [.command 0x500#32, .tick] }.agenda = .command 0x500#32 :: [.tick] ∧
    decode (cmdOfWrite 0x500#32) = .command (.recvb 0) ∧
    { quiet with agenda := [.command 0x700#32] }.agenda = .command 0x700#32 :: [] ∧
    decode (cmdOfWrite 0x700#32) = .reserved 0x7#4 ∧ decodeTableWord 12 0x6FF = some (.sendack true 0x7F#7) ∧
    quiet.agenda = [] ∧ { quiet with agenda := [.tick] }.agenda = .tick :: [] :=
  ⟨rfl, by decide, rfl, by decide, by decide, rfl, rfl⟩

theorem witness_StartCommand : quiet.Ready ∧ oneTickIn.rst = false ∧ oneTickIn.busy = true := ⟨quiet_ready, rfl, rfl⟩
theorem witness_StopCommand : (inSession []).Ready ∧ oneTickIn.rst = false ∧ oneTickIn.busy = true :=
  ⟨inSession_ready _, rfl, rfl⟩
theorem witness_SendbCommand : (inSession []).Ready ∧ quiet.Ready ∧ oneTickIn.rst = false ∧ oneTickIn.busy = true :=
  ⟨inSession_ready _, quiet_ready, rfl, rfl⟩
theorem witness_SendbaCommand : (inSession [true]).sdaIn.draw = (true, ⟨[], 0⟩) ∧ (inSession [true]).Ready ∧
    oneTickIn.sdaIn.draw = (Config.sdaLevel 0, ⟨[], 1⟩) ∧ oneTickIn.rst = false ∧ oneTickIn.busy = true :=
  ⟨rfl, inSession_ready _, rfl, rfl, rfl⟩
theorem witness_RecvbCommand : (∃ inp, (inSession [true, true, false, false, false, false, true, true]).sdaIn.drawMany 8 =
      ([true, true, false, false, false, false, true, true], inp)) ∧
    (inSession [true, true, false, false, false, false, true, true]).Ready ∧
    (∃ v7 v6 v5 v4 v3 v2 v1 v0 inp, oneTickIn.sdaIn.drawMany 8 = ([v7, v6, v5, v4, v3, v2, v1, v0], inp)) ∧
    oneTickIn.rst = false ∧ oneTickIn.busy = true :=
  ⟨⟨_, rfl⟩, inSession_ready _, ⟨_, _, _, _, _, _, _, _, _, rfl⟩, rfl, rfl⟩
theorem witness_SendackCommand : (inSession []).Ready ∧ oneTickIn.rst = false ∧ oneTickIn.busy = true :=
  ⟨inSession_ready _, rfl, rfl⟩

/-- `CommandFrame`, `LinesAfterEachCommand`: a ready state; for the last clauses a byte command with the clock low. -/
theorem witness_CommandFrame : (inSession []).Ready ∧ (∀ b : Byte, Instr.sendb 0x00#8 ≠ .sendba b) ∧
    (∀ d : Byte, Instr.sendb 0x00#8 ≠ .recvb d) ∧ isByteCommand (.sendb 0x00#8) = true ∧ (inSession []).sclOut = false :=
  ⟨inSession_ready _, by simp, by simp, rfl, rfl⟩

theorem witness_LinesAfterEachCommand : quiet.Ready := quiet_ready

/-- A byte command with the clock low; its sample is micro-step 26, its first `SD` micro-step 0. -/
theorem witness_ClockLowDiscipline : isByteCommand (.sendba 0xD0#8) = true ∧ (inSession []).sclOut = false ∧
    (microProgram (.sendba 0xD0#8))[0]? = some (.sd true) ∧ (microProgram (.sendba 0xD0#8))[26]? = some (.rd .ackIn) := by decide

/-- The first and the last sample of `RECVB`. -/
theorem witness_SamplesOnlyTheReleasedLine : (microProgram (.recvb 0))[2]? = some (.rd (.rxShift 7)) ∧
    (microProgram (.recvb 0))[23]? = some (.rd (.rxShift 0)) := by decide

theorem witness_LineSequenceDependsOnLinesOnly : (inSession [true]).Ready ∧ (inSession [false]).Ready ∧
    (inSession [true]).sclOut = (inSession [false]).sclOut ∧ (inSession [true]).sdaOut = (inSession [false]).sdaOut :=
  ⟨inSession_ready _, inSession_ready _, rfl, rfl⟩

theorem witness_StartThenStop : quiet.Idle := quiet_idle

theorem witness_TransactionMakesOnlyItsConditions : quiet.Idle ∧
    ∀ i ∈ [Instr.sendba 0xD0#8, .start 0, .sendba 0xD1#8, .recvb 0, .sendack true 0], isInner i = true :=
  ⟨quiet_idle, by decide⟩

/-- Both states of the loopback: one that sends, one that is presented the levels of 0xA5. -/
theorem witness_LoopbackReproducesTheByte : quiet.Ready ∧
    (inSession (wireBits 0xA5#8)).Ready ∧ (inSession (wireBits 0xA5#8)).sdaIn.upcoming = wireBits 0xA5#8 ++ [] ∧
    after (exec (.sendb 0xA5#8) quiet) (fun t => (dataAtClockHigh quiet.wires t.hist).take 8) = some (wireBits 0xA5#8) :=
  ⟨quiet_ready, inSession_ready _, by decide, by decide⟩

theorem witness_WriteRegisterSequence : quiet.Idle ∧
    ∃ v1 v2 v3 inp, quiet.sdaIn.drawMany 3 = ([v1, v2, v3], inp) := ⟨quiet_idle, ⟨_, _, _, _, rfl⟩⟩

/-- Eleven draws that the list covers, and eleven of which it covers only the first three. -/
theorem witness_ReadRegisterSequence :
    State.Idle { quiet with sdaIn := ⟨[false, false, false] ++ wireBits 0x68#8, 0⟩ } ∧
    (SdaInput.drawMany 11 ⟨[false, false, false] ++ wireBits 0x68#8, 0⟩).2 = ⟨[], 0⟩ ∧
    State.Idle { quiet with sdaIn := ⟨[false, false, false], 0⟩ } ∧
    (SdaInput.drawMany 11 ⟨[false, false, false], 0⟩).2 = ⟨[], 8⟩ := ⟨quiet_idle, rfl, quiet_idle, rfl⟩

theorem witness_RegisterRoundTripAgainstEchoSlave : quiet.Idle ∧ (EchoSlave.initial 0x68#7).address = 0x68#7 :=
  ⟨quiet_idle, rfl⟩

theorem witness_RegisterProtocolIsWellFormed : isDocumentedTransaction [.start 0, .stop 0] = true ∧
    isDocumentedTransaction [.start 0, .sendba 0xD1#8, .recvb 0, .sendack true 0, .stop 0] = true := by decide

/-- A command in mid-run meets the invariant and steps on. -/
theorem witness_InvariantKeptByEveryStep : oneTickIn.Inv ∧ ∃ t, step oneTickIn = .next t := by
  refine ⟨⟨?_, fun _ => ⟨.start 0, ?_⟩, ?_, ?_, ?_⟩, _, rfl⟩ <;> decide

/-- A history of a whole `START` meets the hypothesis, and its step goes on. -/
theorem witness_HistoryTrueKeptByEveryStep : lastPhase.HistoryTrue ∧ ∃ t, step lastPhase = .next t :=
  ⟨⟨rfl, rfl⟩, _, rfl⟩

theorem witness_HistoryOnlyGrows : ∃ t, step delayOver = .next t := ⟨_, rfl⟩

theorem witness_NoRunFaults : oneTickIn.Inv := witness_InvariantKeptByEveryStep.1

/-- `NACKF` cleared by a write of `STATUS`, and by reset. -/
theorem witness_NackFlagIsSticky : allFlags.nackF = true ∧
    (∃ t, step { allFlags with agenda := [.write 0x04 4 0x10#32] } = .next t ∧ t.nackF = false) ∧
    ∃ t, step { allFlags with agenda := [.rst true] } = .next t ∧ t.nackF = false :=
  ⟨rfl, ⟨_, rfl, rfl⟩, ⟨_, rfl, rfl⟩⟩

end Sys2Proof.Tests
end

/-! PROOF. The statements about the state (spec/10_state.md): what micro-operations leave alone and record, what a step does to
the history and the lines, and the invariants every step keeps. -/

namespace Sys2Proof.Machine

/-! ### What a micro-operation and a series of them leave alone, by the samples among them -/

theorem perform_ackIn_nackF (u : Uop) (s : State) (h : u ≠ .rd .ackIn) :
    (perform u s).ackIn = s.ackIn ∧ (perform u s).nackF = s.nackF := by
  cases u with
  | rd d => cases d with
    | ackIn => exact absurd rfl h
    | rxShift i => exact ⟨rfl, rfl⟩
  | _ => exact ⟨rfl, rfl⟩

theorem perform_rxShift (u : Uop) (s : State) (h : ∀ i, u ≠ .rd (.rxShift i)) :
    (perform u s).rxShift = s.rxShift := by
  cases u with
  | rd d => cases d with
    | ackIn => rfl
    | rxShift i => exact absurd rfl (h i)
  | _ => rfl

theorem perform_sdaIn (u : Uop) (s : State) (h : ∀ d, u ≠ .rd d) : (perform u s).sdaIn = s.sdaIn := by
  cases u with
  | rd d => exact absurd rfl (h d)
  | _ => rfl

/-- A sample is one draw, wherever it goes (R13, R93). -/
theorem perform_rd_sdaIn (d : RdDest) (s : State) : (perform (.rd d) s).sdaIn = s.sdaIn.draw.2 := by
  cases d <;> rfl

theorem performAll_ackIn_nackF (us : List Uop) (s : State) (h : .rd .ackIn ∉ us) :
    (performAll us s).ackIn = s.ackIn ∧ (performAll us s).nackF = s.nackF := by
  induction us generalizing s with
  | nil => exact ⟨rfl, rfl⟩
  | cons u us ih =>
    obtain ⟨hu, hus⟩ := List.ne_and_not_mem_of_not_mem_cons h
    obtain ⟨ha, hn⟩ := perform_ackIn_nackF u s hu.symm
    obtain ⟨ha', hn'⟩ := ih (perform u s) hus
    exact ⟨ha'.trans ha, hn'.trans hn⟩

theorem performAll_rxShift (us : List Uop) (s : State) (h : ∀ i, .rd (.rxShift i) ∉ us) :
    (performAll us s).rxShift = s.rxShift := by
  induction us generalizing s with
  | nil => rfl
  | cons u us ih =>
    have hu : ∀ i, u ≠ .rd (.rxShift i) := fun i e => h i (e ▸ List.mem_cons_self)
    exact (ih (perform u s) fun i hi => h i (List.mem_cons_of_mem _ hi)).trans (perform_rxShift u s hu)

theorem performAll_sdaIn (us : List Uop) (s : State) (h : ∀ d, .rd d ∉ us) : (performAll us s).sdaIn = s.sdaIn := by
  induction us generalizing s with
  | nil => rfl
  | cons u us ih =>
    have hu : ∀ d, u ≠ .rd d := fun d e => h d (e ▸ List.mem_cons_self)
    exact (ih (perform u s) fun d hd => h d (List.mem_cons_of_mem _ hd)).trans (perform_sdaIn u s hu)

/-- `NACKF` never falls by a micro-operation (R24). -/
theorem perform_nackF_of_set (u : Uop) (s : State) (h : s.nackF = true) : (perform u s).nackF = true := by
  by_cases hu : u = .rd .ackIn
  · subst hu
    simp [perform, readData, storeSample, h]
  · exact (perform_ackIn_nackF u s hu).2.trans h

theorem performAll_nackF_of_set (us : List Uop) (s : State) (h : s.nackF = true) : (performAll us s).nackF = true := by
  induction us generalizing s with
  | nil => exact h
  | cons u us ih => exact ih _ (perform_nackF_of_set u s h)

/-! ### The samples of the micro-programs -/

/-- Only `SENDBA` samples the acknowledge and only `RECVB` samples into `RXSHIFT` (R100, R104). -/
theorem rd_mem_microProgram (i : Instr) (d : RdDest) (h : .rd d ∈ microProgram i) :
    (∃ b, i = .sendba b ∧ d = .ackIn) ∨ ∃ x j, i = .recvb x ∧ d = .rxShift j := by
  cases i with
  | start x => simp [microProgram, startProgram] at h
  | stop x => simp [microProgram, stopProgram] at h
  | sendb b => simp [microProgram, sendbProgram, shiftOut, sendBit, clockPulse] at h
  | sendba b =>
    refine .inl ⟨b, rfl, ?_⟩
    simpa [microProgram, sendbaProgram, shiftOut, sendBit, clockPulse] using h
  | recvb x =>
    obtain ⟨j, -, hj⟩ : ∃ j, j ∈ bitOrder ∧ d = .rxShift j := by
      simpa [microProgram, recvbProgram, receiveBit] using h
    exact .inr ⟨x, j, rfl, hj⟩
  | sendack a hi => simp [microProgram, sendackProgram, sendBit, clockPulse] at h

theorem ackIn_not_mem_microProgram (i : Instr) (hi : ∀ b, i ≠ .sendba b) : .rd .ackIn ∉ microProgram i := by
  intro hmem
  rcases rd_mem_microProgram i _ hmem with ⟨b, e, -⟩ | ⟨x, j, -, e⟩
  · exact hi b e
  · cases e

theorem rxShift_not_mem_microProgram (i : Instr) (hi : ∀ x, i ≠ .recvb x) (j : Fin 8) :
    .rd (.rxShift j) ∉ microProgram i := by
  intro hmem
  rcases rd_mem_microProgram i _ hmem with ⟨b, -, e⟩ | ⟨x, j', e, -⟩
  · cases e
  · exact hi x e

/-- Opcode 0x5 is `RECVB` alone (R72). -/
theorem op_ne_of_not_recvb (i : Instr) (hi : ∀ x, i ≠ .recvb x) : i.op ≠ 0x5#4 := by
  cases i with
  | recvb x => exact absurd rfl (hi x)
  | _ => simp [Instr.op]

/-- A byte command that finds the clock low makes no condition (R125, R139). -/
theorem performAll_microProgram_session (i : Instr) (s : State) (hi : isByteCommand i = true)
    (hc : s.sclOut = false) : (performAll (microProgram i) s).session = s.session := by
  cases i with
  | start x => simp [isByteCommand] at hi
  | stop x => simp [isByteCommand] at hi
  | sendb b =>
    simp [microProgram, sendbProgram, performAll_append, performAll_shiftOut, clockPulse, perform, hc, sessionAfter]
  | sendba b =>
    simp [microProgram, sendbaProgram, performAll_append, performAll_shiftOut, perform, readData, storeSample, hc,
      sessionAfter]
  | recvb x =>
    simp [microProgram, recvbProgram, performAll_receiveBits, perform, hc, sessionAfter]
  | sendack a hi =>
    simp [microProgram, sendackProgram, performAll_sendBit, hc, sessionAfter]

/-! ### Events -/

/-- What a micro-operation does to the lines is what the event it appends says (R30, R92). -/
theorem performed_eq_after_uopEvent (u : Uop) (s : State) : s.wires.performed u = s.wires.after (uopEvent u s) := by
  cases u with
  | sc l => rfl
  | rd d => rfl
  | sd l =>
    rcases sdEvent_cases s.sclOut s.sdaOut l with ⟨-, -, rfl, he⟩ | ⟨-, -, rfl, he⟩ | ⟨-, he⟩ <;>
      simp [WireView.performed, WireView.after, uopEvent, State.wires, sessionAfter, he]

/-- A micro-operation records its event where R95 allows it. -/
theorem admits_uopEvent (u : Uop) (s : State) : s.wires.admits (uopEvent u s) = true := by
  cases u with
  | sc l => rfl
  | rd d => rfl
  | sd l =>
    change s.wires.admits (sdEvent s.sclOut s.sdaOut l) = true
    rcases sdEvent_cases s.sclOut s.sdaOut l with ⟨hc, hd, -, he⟩ | ⟨hc, hd, -, he⟩ | ⟨hn, he⟩ <;> rw [he]
    · simp [WireView.admits, State.wires, hc, hd]
    · simp [WireView.admits, State.wires, hc, hd]
    · rcases hn with hc | hd
      · simp [WireView.admits, State.wires, hc]
      · simp [WireView.admits, State.wires, hd]

/-- But for the sampled value, the event depends on the two outputs alone (R9). -/
theorem uopEvent_withoutSample_congr (u : Uop) (s₁ s₂ : State) (hc : s₁.sclOut = s₂.sclOut) (hd : s₁.sdaOut = s₂.sdaOut) :
    (uopEvent u s₁).withoutSample = (uopEvent u s₂).withoutSample := by
  cases u with
  | sc l => rfl
  | sd l => rw [uopEvent, uopEvent, hc, hd]
  | rd d => rfl

theorem perform_outputs_congr (u : Uop) (s₁ s₂ : State) (hc : s₁.sclOut = s₂.sclOut) (hd : s₁.sdaOut = s₂.sdaOut) :
    (perform u s₁).sclOut = (perform u s₂).sclOut ∧ (perform u s₁).sdaOut = (perform u s₂).sdaOut := by
  cases u with
  | sc l => exact ⟨rfl, hd⟩
  | sd l => exact ⟨hc, rfl⟩
  | rd d => cases d <;> exact ⟨hc, hd⟩

/-- Two runs of a program from equal outputs append events that differ at most in the sampled values (R9, R34). -/
theorem performAll_events_congr (us : List Uop) (s₁ s₂ : State) (hc : s₁.sclOut = s₂.sclOut)
    (hd : s₁.sdaOut = s₂.sdaOut) :
    ∃ es₁ es₂, (performAll us s₁).hist = s₁.hist ++ es₁ ∧ (performAll us s₂).hist = s₂.hist ++ es₂ ∧
      es₁.map LineEvent.withoutSample = es₂.map LineEvent.withoutSample ∧ es₁.length = us.length := by
  induction us generalizing s₁ s₂ with
  | nil => exact ⟨[], [], by simp⟩
  | cons u us ih =>
    obtain ⟨hc', hd'⟩ := perform_outputs_congr u s₁ s₂ hc hd
    obtain ⟨es₁, es₂, h₁, h₂, hmap, hlen⟩ := ih (perform u s₁) (perform u s₂) hc' hd'
    refine ⟨uopEvent u s₁ :: es₁, uopEvent u s₂ :: es₂, ?_, ?_, ?_, ?_⟩
    · simp [h₁, perform_hist]
    · simp [h₂, perform_hist]
    · simp [hmap, uopEvent_withoutSample_congr u s₁ s₂ hc hd]
    · simp [hlen]

/-! ### What every kind of step preserves, every step preserves -/

/-- A property that the kinds of step preserve, each from any state, is preserved by `step`: the case split of `step_cases`, made
once. A change of what belongs to the other agents stands for taking an action off the agenda and for a host read. -/
theorem step_preserves {P : State → Prop}
    (agents : ∀ s inp as rs, P s → P { s with sdaIn := inp, agenda := as, reads := rs })
    (ticked : ∀ s t, tick s = .next t → P s → P t)
    (written : ∀ off v s, P s → P (hostWrite off v s))
    (rstSet : ∀ l s, P s → P (setRst l s))
    (executed : ∀ i s t, exec i s = .next t → P s → P t)
    {s t : State} (h : step s = .next t) (hs : P s) : P t := by
  have taken (as : List Action) : P { s with agenda := as } := agents s _ as _ hs
  rcases step_cases s t h with ⟨b, as, ht, -⟩ | ⟨rest, -, rfl⟩ | ⟨off, bytes, rest, -, rfl⟩ |
    ⟨off, bytes, v, rest, -, -, rfl⟩ | ⟨l, rest, -, rfl⟩ | ⟨v, i, rest, -, -, he⟩ | ⟨v, op, rest, -, -, rfl⟩
  · exact ticked _ t ht (taken as)
  · exact taken rest
  · obtain ⟨inp, w, hr, -⟩ := hostRead_cases off { s with agenda := rest }
    rw [hr]
    exact agents s _ _ _ hs
  · exact written off v _ (taken rest)
  · exact rstSet l _ (taken rest)
  · exact executed i _ t he (taken rest)
  · exact written 0x00 v _ (taken rest)

/-! ### What a step does to the history and the lines -/

/-- From `s` to `t` the history only grew, by events that are recorded truly and that account for what became of the two
outputs and `SESSION` (R30, R95). -/
def State.Records (s t : State) : Prop :=
  ∃ es, t.hist = s.hist ++ es ∧ t.wires = es.foldl WireView.after s.wires ∧ trueFrom s.wires es = true

/-- A history in two parts is true if each part is, the second from the view the first leaves. -/
theorem trueFrom_append (v : WireView) (es fs : List LineEvent) :
    trueFrom v (es ++ fs) = (trueFrom v es && trueFrom (es.foldl WireView.after v) fs) := by
  induction es generalizing v with
  | nil => rfl
  | cons e es ih => simp [trueFrom, ih, Bool.and_assoc]

theorem State.Records.of_unchanged {s t : State} (hh : t.hist = s.hist) (hw : t.wires = s.wires) : s.Records t :=
  ⟨[], by simp [hh], hw, rfl⟩

theorem State.Records.trans {s t u : State} (hst : s.Records t) (htu : t.Records u) : s.Records u := by
  obtain ⟨es, hh, hw, ht⟩ := hst
  obtain ⟨fs, hh', hw', ht'⟩ := htu
  refine ⟨es ++ fs, ?_, ?_, ?_⟩
  · rw [hh', hh, List.append_assoc]
  · rw [hw', hw, List.foldl_append]
  · rw [trueFrom_append, ht, ← hw, ht', Bool.and_true]

/-- A micro-operation records its one event. -/
theorem records_perform (u : Uop) (s : State) : s.Records (perform u s) := by
  refine ⟨[uopEvent u s], perform_hist u s, ?_, ?_⟩
  · rw [perform_wires, performed_eq_after_uopEvent, List.foldl_cons, List.foldl_nil]
  · simp [trueFrom, admits_uopEvent]

theorem records_performAll (us : List Uop) (s : State) : s.Records (performAll us s) := by
  induction us generalizing s with
  | nil => exact .of_unchanged rfl rfl
  | cons u us ih => exact (records_perform u s).trans (ih _)

/-- A tick performs at most one micro-operation (R103). -/
theorem records_tick (s t : State) (h : tick s = .next t) : s.Records t := by
  rcases tick_cases s t h with ⟨rfl, -⟩ | ⟨-, -, -, rfl⟩ | ⟨-, -, -, i, -, ⟨u, -, -, rfl⟩ | ⟨-, rfl⟩⟩
  · exact .of_unchanged rfl rfl
  · exact .of_unchanged rfl rfl
  · exact (records_perform u s).trans (.of_unchanged rfl rfl)
  · exact .of_unchanged rfl rfl

/-- A host write is nothing to the lines (R43, R58). -/
theorem records_hostWrite (off : Nat) (v : RegWord) (s : State) : s.Records (hostWrite off v s) := by
  rcases hostWrite_cases off v s with h | ⟨-, -, h⟩ | ⟨-, -, h⟩ | ⟨-, -, -, i, -, h⟩ | ⟨-, -, h⟩ | ⟨-, -, -, h⟩ <;>
    rw [h] <;> exact .of_unchanged rfl rfl

/-- A command as one transition records the events of its micro-program, or none (R112). -/
theorem records_exec (i : Instr) (s t : State) (h : exec i s = .next t) : s.Records t := by
  rcases exec_cases i s with ⟨-, he⟩ | ⟨-, -, he⟩ | ⟨-, -, he⟩ <;>
    obtain rfl := Host.Outcome.next.inj (he.symm.trans h)
  · exact .of_unchanged rfl rfl
  · exact .of_unchanged rfl rfl
  · have hbegin : s.Records (beginCommand (encode i) s) := .of_unchanged rfl rfl
    exact (hbegin.trans (records_performAll (microProgram i) _)).trans (.of_unchanged rfl rfl)

/-- A change of `rst` records `EvRESET` where it is the reset step, and nothing otherwise (R190). -/
theorem records_setRst (l : Level) (s : State) : s.Records (setRst l s) := by
  rcases setRst_cases l s with ⟨-, -, h⟩ | ⟨-, h⟩ <;> rw [h]
  · exact ⟨[.reset], rfl, rfl, rfl⟩
  · exact .of_unchanged rfl rfl

/-- Every step only appends to the history, truly, and the appended events account for the lines. -/
theorem records_step (s t : State) (h : step s = .next t) : s.Records t := by
  refine step_preserves (P := s.Records) ?_ ?_ ?_ ?_ ?_ h (.of_unchanged rfl rfl)
  · exact fun u inp as rs hu => hu.trans (.of_unchanged rfl rfl)
  · exact fun u t ht hu => hu.trans (records_tick u t ht)
  · exact fun off v u hu => hu.trans (records_hostWrite off v u)
  · exact fun l u hu => hu.trans (records_setRst l u)
  · exact fun i u t ht hu => hu.trans (records_exec i u t ht)

/-- A true history stays true under what is recorded truly. -/
theorem State.HistoryTrue.of_records {s t : State} (hs : s.HistoryTrue) (h : s.Records t) : t.HistoryTrue := by
  obtain ⟨hreplay, htrue⟩ := hs
  obtain ⟨es, hh, hw, ht⟩ := h
  have hview : s.hist.foldl WireView.after ⟨true, true, false⟩ = s.wires := hreplay
  constructor
  · rw [replay, hh, List.foldl_append, hview, hw]
  · rw [hh, trueFrom_append, htrue, hview, ht, Bool.and_true]

/-! ### The invariant of R33 -/

/-- An idle state in which `rst` is 0 meets the invariant if its counters are 0 and `NACKF` was sampled. -/
theorem State.Inv.of_idle {s : State} (hr : s.rst = false) (hb : s.busy = false) (hu : s.upc = 0) (hd : s.settle = 0)
    (hn : s.nackF = true → .rd true ∈ s.hist) : s.Inv where
  idleCounters _ := ⟨hu, hd⟩
  busyCommand h := by simp [hb] at h
  settleBound := by rw [hd]; exact Nat.zero_le _
  nackSampled := hn
  heldReset h := by simp [hr] at h

/-- A busy state in which `rst` is 0 meets the invariant if its command and counters are in range and `NACKF` was sampled. -/
theorem State.Inv.of_busy {s : State} (hr : s.rst = false) (hb : s.busy = true) {i : Instr}
    (hi : decode s.cmdReg = .command i) (hu : s.upc.toNat ≤ Instr.len i) (hd : s.settle ≤ s.tSettle)
    (hn : s.nackF = true → .rd true ∈ s.hist) : s.Inv where
  idleCounters h := by simp [hb] at h
  busyCommand _ := ⟨i, hi, hu⟩
  settleBound := hd
  nackSampled := hn
  heldReset h := by simp [hr] at h

/-- What belongs to the other agents is nothing to the invariant (R6). -/
theorem State.Inv.withAgents {s : State} (h : s.Inv) (inp : SdaInput) (as : List Action) (rs : List (Nat × RegWord)) :
    State.Inv { s with sdaIn := inp, agenda := as, reads := rs } :=
  ⟨h.idleCounters, h.busyCommand, h.settleBound, h.nackSampled, h.heldReset⟩

/-- While `rst` is 0 the sticky flags are free, but that `NACKF` is not raised without a sample (R33(d)). -/
theorem State.Inv.withFlags {s : State} (h : s.Inv) (hr : s.rst = false) (n o l : Bool) (hn : n = true → s.nackF = true) :
    State.Inv { s with nackF := n, ovr := o, ill := l } :=
  ⟨h.idleCounters, h.busyCommand, h.settleBound, fun e => h.nackSampled (hn e), fun e => by simp [hr] at e⟩

/-- A micro-operation raises `NACKF` only by a sample of 1, which it records (R33(d), R104). -/
theorem perform_nackSampled (u : Uop) (s : State) (h : s.nackF = true → .rd true ∈ s.hist)
    (hn : (perform u s).nackF = true) : .rd true ∈ (perform u s).hist := by
  rw [perform_hist, List.mem_append]
  by_cases hu : u = .rd .ackIn
  · subst hu
    have hset : s.nackF = true ∨ s.sdaIn.draw.1 = true := by
      simpa [perform, readData, storeSample] using hn
    exact hset.imp h fun hv => by simp [uopEvent, hv]
  · rw [(perform_ackIn_nackF u s hu).2] at hn
    exact .inl (h hn)

theorem performAll_nackSampled (us : List Uop) (s : State) (h : s.nackF = true → .rd true ∈ s.hist)
    (hn : (performAll us s).nackF = true) : .rd true ∈ (performAll us s).hist := by
  induction us generalizing s with
  | nil => exact h hn
  | cons u us ih => exact ih (perform u s) (perform_nackSampled u s h) hn

theorem inv_tick (s t : State) (hs : s.Inv) (h : tick s = .next t) : t.Inv := by
  rcases tick_cases s t h with ⟨rfl, -⟩ | ⟨hr, hb, hd, rfl⟩ | ⟨hr, hb, hd, i, hi, ⟨u, -, hu, rfl⟩ | ⟨-, rfl⟩⟩
  · exact hs
  · obtain ⟨i, hi, hu⟩ := hs.busyCommand hb
    have hle := hs.settleBound
    have hdec : s.settle - 1 ≤ s.tSettle := by bv_omega
    exact .of_busy hr hb hi hu hdec hs.nackSampled
  · have hnack := perform_nackSampled u s hs.nackSampled
    exact .of_busy (by simp [hr]) (by simp [hb]) (by simpa using hi) (upc_succ_le i _ hu) (by simp) hnack
  · exact .of_idle hr rfl rfl hd hs.nackSampled

theorem inv_hostWrite (off : Nat) (v : RegWord) (s : State) (hs : s.Inv) : (hostWrite off v s).Inv := by
  rcases hostWrite_cases off v s with h | ⟨hr, -, h⟩ | ⟨hr, -, h⟩ | ⟨hr, -, -, i, hi, h⟩ | ⟨hr, -, h⟩ | ⟨hr, hb, -, h⟩ <;>
    rw [h]
  · exact hs
  · exact hs.withFlags hr _ _ _ id
  · exact hs.withFlags hr _ _ _ id
  · exact .of_busy hr rfl hi (Nat.zero_le _) (Nat.zero_le _) hs.nackSampled
  · exact hs.withFlags hr _ _ _ fun hn => (Bool.and_eq_true_iff.mp hn).1
  · obtain ⟨hu, hd⟩ := hs.idleCounters hb
    exact .of_idle hr hb hu hd hs.nackSampled

theorem inv_exec (i : Instr) (s t : State) (hs : s.Inv) (h : exec i s = .next t) : t.Inv := by
  rcases exec_cases i s with ⟨-, he⟩ | ⟨hr, -, he⟩ | ⟨hr, -, he⟩ <;>
    obtain rfl := Host.Outcome.next.inj (he.symm.trans h)
  · exact hs
  · exact hs.withFlags hr _ _ _ id
  · have hnack := performAll_nackSampled (microProgram i) (beginCommand (encode i) s) hs.nackSampled
    exact .of_idle (by simp [hr]) rfl rfl (by simp) hnack

theorem inv_setRst (l : Level) (s : State) (hs : s.Inv) : (setRst l s).Inv := by
  rcases setRst_cases l s with ⟨-, -, h⟩ | ⟨hl, h⟩ <;> rw [h]
  · exact ⟨fun _ => ⟨rfl, rfl⟩, nofun, Nat.zero_le _, nofun, fun _ => rfl⟩
  · have hheld (e : l = true) : s.rst = true := hl.resolve_left (by simp [e])
    exact ⟨hs.idleCounters, hs.busyCommand, hs.settleBound, hs.nackSampled, fun e => hs.heldReset (hheld e)⟩

theorem inv_step (s t : State) (hs : s.Inv) (h : step s = .next t) : t.Inv :=
  step_preserves (fun _ inp as rs hs => hs.withAgents inp as rs) (fun s t ht hs => inv_tick s t hs ht) inv_hostWrite
    inv_setRst (fun i s t ht hs => inv_exec i s t hs ht) h hs

/-! ### What can clear NACKF -/

theorem tick_nackF_of_set (s t : State) (h : tick s = .next t) (hn : s.nackF = true) : t.nackF = true := by
  rcases tick_cases s t h with ⟨rfl, -⟩ | ⟨-, -, -, rfl⟩ | ⟨-, -, -, i, -, ⟨u, -, -, rfl⟩ | ⟨-, rfl⟩⟩
  · exact hn
  · exact hn
  · exact perform_nackF_of_set u s hn
  · exact hn

theorem exec_nackF_of_set (i : Instr) (s t : State) (h : exec i s = .next t) (hn : s.nackF = true) : t.nackF = true := by
  rcases exec_cases i s with ⟨-, he⟩ | ⟨-, -, he⟩ | ⟨-, -, he⟩ <;>
    obtain rfl := Host.Outcome.next.inj (he.symm.trans h)
  · exact hn
  · exact hn
  · exact performAll_nackF_of_set (microProgram i) (beginCommand (encode i) s) hn

/-- A host write clears `NACKF` only at `STATUS`, with bit 4 set (R47). -/
theorem hostWrite_clears_nackF (off : Nat) (v : RegWord) (s : State) (hn : s.nackF = true)
    (ht : (hostWrite off v s).nackF = false) : off = 0x04 ∧ v.getLsbD 4 = true := by
  rcases hostWrite_cases off v s with h | ⟨-, -, h⟩ | ⟨-, -, h⟩ | ⟨-, -, -, i, -, h⟩ | ⟨-, ho, h⟩ | ⟨-, -, -, h⟩ <;>
    rw [h] at ht
  case inr.inr.inr.inr.inl => exact ⟨ho, by simpa [hn] using ht⟩
  all_goals simp [hn] at ht

/-- A change of `rst` clears `NACKF` only by the reset step (R190). -/
theorem setRst_clears_nackF (l : Level) (s : State) (hn : s.nackF = true) (ht : (setRst l s).nackF = false) :
    l = true := by
  rcases setRst_cases l s with ⟨hl, -, -⟩ | ⟨-, h⟩
  · exact hl
  · simp [h, hn] at ht

/-- An admitted access is four bytes wide (R52). -/
theorem bytes_of_accessRefusal_none (off bytes : Nat) (h : accessRefusal off bytes = none) : bytes = 4 := by
  by_contra hne
  simp [accessRefusal, widthOk, hne] at h

/-! ### The obligations -/

/-- Settles O56: each kind of step keeps the invariant, by the inversion of `step`. -/
theorem invariantKeptByEveryStep : Obligations.InvariantKeptByEveryStep := inv_step

/-- Settles O57: every step records truly what it does to the lines. -/
theorem historyTrueKeptByEveryStep : Obligations.HistoryTrueKeptByEveryStep := fun s t hs h =>
  hs.of_records (records_step s t h)

/-- Settles O13: the second sample draws from what the first left. -/
theorem samplesAreFreshDraws : Obligations.SamplesAreFreshDraws := by
  intro s v v' rest d d' hup
  have hin : s.sdaIn = ⟨v :: v' :: rest, s.sdaIn.drawn⟩ := by rw [← hup]
  have hfirst : (perform (.rd d) s).sdaIn = ⟨v' :: rest, s.sdaIn.drawn⟩ := by
    rw [perform_rd_sdaIn, hin, SdaInput.draw_listed]
  refine ⟨_, rfl, ?_, ?_, ?_⟩
  · simp only [performAll_cons, performAll_nil, perform_hist, uopEvent, hfirst, SdaInput.draw_listed]
    rw [hin, SdaInput.draw_listed, List.append_assoc, List.singleton_append]
  · simp [perform_rd_sdaIn, hfirst]
  · simp [perform_rd_sdaIn, hfirst]

/-- Settles O42: a ready command is its micro-program between acceptance and completion, and only its samples reach the flags,
the receive registers and the input. -/
theorem commandFrame : Obligations.CommandFrame := by
  intro i s hs
  have hexec := exec_ready i s hs
  obtain ⟨hr, hb⟩ := hs
  refine ⟨_, hexec, ?_⟩
  refine ⟨by simp, by simp, by simp, by simp, by simp, by simp, by simp, by simp, by simp, by simp, fun hi => ?_,
    fun hi => ?_, fun hi hi' => ?_, fun hi hc => ?_⟩
  · exact performAll_ackIn_nackF (microProgram i) (beginCommand (encode i) s)
      (ackIn_not_mem_microProgram i hi)
  · have hop := op_ne_of_not_recvb i hi
    constructor
    · simp [opcodeField_encode, hop]
    · simp [performAll_rxShift _ _ (rxShift_not_mem_microProgram i hi), opcodeField_encode, hop]
  · have hrd (d : RdDest) : .rd d ∉ microProgram i := by
      cases d with
      | ackIn => exact ackIn_not_mem_microProgram i hi
      | rxShift j => exact rxShift_not_mem_microProgram i hi' j
    exact performAll_sdaIn (microProgram i) (beginCommand (encode i) s) hrd
  · exact performAll_microProgram_session i (beginCommand (encode i) s) hi hc

/-- Settles O46: both runs perform the same micro-operations, from equal outputs. -/
theorem lineSequenceDependsOnLinesOnly : Obligations.LineSequenceDependsOnLinesOnly := by
  intro i s₁ s₂ h₁ h₂ hc hd
  obtain ⟨es₁, es₂, hh₁, hh₂, hmap, hlen⟩ :=
    performAll_events_congr (microProgram i) (beginCommand (encode i) s₁) (beginCommand (encode i) s₂) hc hd
  exact ⟨_, _, es₁, es₂, exec_ready i s₁ h₁, exec_ready i s₂ h₂, hh₁, hh₂, hmap, hlen⟩

/-- Settles O58: what a step records, it appends. -/
theorem historyOnlyGrows : Obligations.HistoryOnlyGrows := fun s t h =>
  let ⟨es, hh, _, _⟩ := records_step s t h
  ⟨es, hh⟩

/-- Settles O60: of the kinds of step only a change of `rst` and a host write can clear `NACKF`. -/
theorem nackFlagIsSticky : Obligations.NackFlagIsSticky := by
  intro s t h hn ht
  have kept (hset : t.nackF = true) : False := by simp [ht] at hset
  rcases step_cases s t h with ⟨b, as, htick, -⟩ | ⟨rest, -, rfl⟩ | ⟨off, bytes, rest, -, rfl⟩ |
    ⟨off, bytes, v, rest, ha, hok, rfl⟩ | ⟨l, rest, ha, rfl⟩ | ⟨v, i, rest, -, -, he⟩ | ⟨v, op, rest, -, -, rfl⟩
  · exact (kept (tick_nackF_of_set _ t htick hn)).elim
  · exact (kept hn).elim
  · obtain ⟨inp, w, hr, -⟩ := hostRead_cases off { s with agenda := rest }
    rw [hr] at kept
    exact (kept hn).elim
  · obtain ⟨rfl, hbit⟩ := hostWrite_clears_nackF off v { s with agenda := rest } hn ht
    obtain rfl := bytes_of_accessRefusal_none _ _ hok
    exact .inr ⟨v, rest, ha, hbit⟩
  · obtain rfl := setRst_clears_nackF l { s with agenda := rest } hn ht
    exact .inl ⟨rest, ha⟩
  · exact (kept (exec_nackF_of_set i _ t he hn)).elim
  · obtain ⟨hoff, -⟩ := hostWrite_clears_nackF 0x00 v { s with agenda := rest } hn ht
    cases hoff

/-- Settles O1: each field of the reset state is written out in its definition. -/
theorem resetGivesEveryElementItsValue : Obligations.ResetGivesEveryElementItsValue :=
  ⟨rfl, rfl, rfl, rfl, rfl, rfl, rfl, rfl, rfl, rfl, rfl, rfl, rfl, rfl, rfl⟩

/-- Settles O55: the reset state is idle with nothing sampled, and an empty history leaves the reset lines. -/
theorem invariantsHoldAtReset : Obligations.InvariantsHoldAtReset :=
  ⟨.of_idle rfl rfl rfl rfl nofun, rfl, rfl⟩

end Sys2Proof.Machine

/-! PROOF. The statements about the host register space (spec/20_memory.md) and the step that carries an access: what each
register reads and does with a write, which accesses are steps, and that every sample is taken with the data line released. -/

namespace Sys2Proof.Machine

/-! ### The values read -/

/-- `STATUS` is its seven bits, from bit 0 up, and zeros above them (R46). -/
theorem statusWord_getLsbD (s : State) (j : Nat) :
    (statusWord s).getLsbD j = ([s.busy, s.session, s.ackIn, false, s.nackF, s.ovr, s.ill][j]?).getD false := by
  rcases Nat.lt_or_ge j 7 with hj | hj
  · rw [statusWord, BitVec.getLsbD_setWidth]
    simp only [BitVec.getLsbD_append]
    interval_cases j <;> simp
  · simp [statusWord, hj]

/-- `LINES` is its three bits, from bit 0 up, and zeros above them (R50). -/
theorem linesWord_getLsbD (sda : Level) (s : State) (j : Nat) :
    (linesWord sda s).getLsbD j = ([s.sclOut, s.sdaOut, sda][j]?).getD false := by
  rcases Nat.lt_or_ge j 3 with hj | hj
  · rw [linesWord, BitVec.getLsbD_setWidth]
    simp only [BitVec.getLsbD_append]
    interval_cases j <;> simp
  · simp [linesWord, hj]

/-- An offset that is no register's reads 0 (R51). -/
theorem readValue_other (off : Nat) (sda : Level) (s : State) (h0 : off ≠ 0x00) (h4 : off ≠ 0x04) (h8 : off ≠ 0x08)
    (hc : off ≠ 0x0C) (h10 : off ≠ 0x10) : readValue off sda s = 0 := by
  unfold readValue
  split
  case h_6 => rfl
  all_goals contradiction

/-- No register shows what the agents do next. -/
theorem readValue_withAgenda (off : Nat) (sda : Level) (s : State) (as : List Action) :
    readValue off sda { s with agenda := as } = readValue off sda s := rfl

/-- A read logs the register's value, and only for `LINES` is the input drawn (R42): `hostRead_cases` with the value said. -/
theorem hostRead_logs_readValue (off : Nat) (s : State) :
    ∃ sda inp, hostRead off s = { s with sdaIn := inp, reads := s.reads ++ [(off, readValue off sda s)] } ∧
      (off ≠ 0x10 → inp = s.sdaIn) := by
  by_cases ho : off = 0x10
  · exact ⟨_, _, if_pos ho, fun hne => absurd ho hne⟩
  · exact ⟨_, s.sdaIn, if_neg ho, fun _ => rfl⟩

/-! ### The values written -/

/-- A sticky flag that is cleared where a 1 is written (R47). -/
theorem and_not_eq_ite (flag bit : Bool) : (flag && !bit) = if bit = true then false else flag := by
  cases bit <;> simp

theorem writeTSettle_busy (v : RegWord) (s : State) (hb : s.busy = true) : writeTSettle v s = { s with ovr := true } :=
  if_pos hb

theorem writeTSettle_idle (v : RegWord) (s : State) (hb : s.busy = false) :
    writeTSettle v s = { s with tSettle := v.extractLsb' 0 16 } := by
  simp [writeTSettle, hb]

/-! ### Admitted accesses -/

/-- An access is admitted exactly where R52 and V8 allow it. -/
theorem accessRefusal_eq_none_iff (off bytes : Nat) :
    accessRefusal off bytes = none ↔ bytes = 4 ∧ off % 4 = 0 ∧ off < 0x20 := by
  simp only [accessRefusal, widthOk, alignedOk, insideBlock, Bool.not_eq_true', beq_eq_false_iff_ne,
    decide_eq_false_iff_not]
  split_ifs with hwidth haligned hinside
  · exact iff_of_false nofun (by omega)
  · exact iff_of_false nofun (by omega)
  · exact iff_of_true rfl (by omega)
  · exact iff_of_false nofun (by omega)

theorem admitted_of_none {off bytes : Nat} (h : accessRefusal off bytes = none) (after : State) :
    admitted off bytes after = .next after := by
  simp [admitted, h]

theorem admitted_of_some {off bytes : Nat} {r : Refusal} (h : accessRefusal off bytes = some r) (after : State) :
    admitted off bytes after = .refused r := by
  simp [admitted, h]

/-! ### The step, by what stands at the head of the agenda -/

theorem step_of_agenda_nil (s : State) (h : s.agenda = []) : step s = tick s := by
  simp [step, h]

theorem step_of_agenda_cons (s : State) (a : Action) (rest : List Action) (h : s.agenda = a :: rest) :
    step s = act a { s with agenda := rest } := by
  simp [step, h]

theorem commandStep_command (v : RegWord) (s : State) (i : Instr) (h : decode (cmdOfWrite v) = .command i) :
    commandStep v s = exec i s := by
  simp [commandStep, h]

theorem commandStep_reserved (v : RegWord) (s : State) (op : BitVec 4) (h : decode (cmdOfWrite v) = .reserved op) :
    commandStep v s = .next (hostWrite 0x00 v s) := by
  simp [commandStep, h]

theorem Decoded.toOption_eq_some_iff (d : Decoded) (i : Instr) : d.toOption = some i ↔ d = .command i := by
  cases d <;> simp [Decoded.toOption]

/-! ### Where samples are taken -/

/-- In a series of micro-operations that finds the data output at `sda`, each `RD()` finds it released (R56). -/
def samplesReleased : Level → List Uop → Bool
  | _, [] => true
  | _, .sd l :: us => samplesReleased l us
  | sda, .sc _ :: us => samplesReleased sda us
  | sda, .rd _ :: us => sda && samplesReleased sda us

/-- What holds of a series holds of what is left of it after its first micro-operation. -/
theorem samplesReleased_perform (u : Uop) (us : List Uop) (s : State) (h : samplesReleased s.sdaOut (u :: us) = true) :
    samplesReleased (perform u s).sdaOut us = true := by
  cases u with
  | sc l => exact h
  | sd l => exact h
  | rd d =>
    obtain ⟨-, hus⟩ := Bool.and_eq_true_iff.mp h
    cases d <;> exact hus

/-- `samplesReleased` says of the machine what it says of the list. -/
theorem sdaOut_at_sample (us : List Uop) (s : State) (hs : samplesReleased s.sdaOut us = true) (k : Nat)
    (h : k < us.length) (d : RdDest) (hrd : us[k] = .rd d) : (performAll (us.take k) s).sdaOut = true := by
  induction us generalizing s k with
  | nil => simp at h
  | cons u us ih =>
    cases k with
    | zero =>
      obtain rfl : u = .rd d := hrd
      exact (Bool.and_eq_true_iff.mp hs).1
    | succ k => exact ih (perform u s) (samplesReleased_perform u us s hs) k (Nat.lt_of_succ_lt_succ h) hrd

/-- A micro-program that samples releases the data line before its first sample and leaves it released up to its last (R100). -/
theorem samplesReleased_microProgram (i : Instr) (sda : Level) : samplesReleased sda (microProgram i) = true := by
  cases i <;> rfl

/-! ### The obligations -/

/-- Settles O45: no micro-program samples but after its own `SD(1)`. -/
theorem samplesOnlyTheReleasedLine : Obligations.SamplesOnlyTheReleasedLine := by
  intro i s k h d slave hrd
  rw [sdaOut_at_sample (microProgram i) s (samplesReleased_microProgram i s.sdaOut) k h d hrd]
  exact Bool.true_and slave

/-- Settles O28: `STATUS` is put together from the seven bits. -/
theorem statusReadBits : Obligations.StatusReadBits := by
  intro s sda
  have hbit := statusWord_getLsbD s
  exact ⟨_, readValue_status sda s, hbit 0, hbit 1, hbit 2, hbit 3, hbit 4, hbit 5, hbit 6,
    fun j hj => by simp [hbit j, hj]⟩

/-- Settles O30: a write of `TSETTLE` while `BUSY = 1` is the overrun event. -/
theorem settleDelayAccess : Obligations.SettleDelayAccess := by
  intro s v sda
  refine ⟨?_, fun hr => ⟨fun hb => ?_, fun hb => ⟨v.extractLsb' 0 16, ?_, ?_⟩⟩⟩
  · rw [readValue_tSettle, BitVec.toNat_setWidth_of_le (by decide)]
  · rw [hostWrite_tSettle v s hr, writeTSettle_busy v s hb]
  · rw [hostWrite_tSettle v s hr, writeTSettle_idle v s hb]
  · simp

/-- Settles O31: `LINES` is put together from the two outputs and one draw. -/
theorem linesRead : Obligations.LinesRead := by
  intro s v inp hdraw
  have hbit := linesWord_getLsbD v s
  have hread : hostRead 0x10 s = { s with sdaIn := inp, reads := s.reads ++ [(0x10, linesWord v s)] } := by
    simp [hostRead, hdraw]
  refine ⟨⟨linesWord v s, hread, hbit 0, hbit 1, hbit 2, fun j hj => by simp [hbit j, hj]⟩, fun u => ?_⟩
  exact hostWrite_other 0x10 u s (by decide) (by decide) (by decide)

/-- Settles O32: both accesses fall through every register of the map. -/
theorem unmappedOffsets : Obligations.UnmappedOffsets := fun off s sda v _ h0 h4 h8 hc h10 =>
  ⟨readValue_other off sda s h0 h4 h8 hc h10, hostWrite_other off v s h0 h4 hc⟩

/-- Settles O33: an admitted read only logs the value, and draws for `LINES`. -/
theorem readsChangeNoState : Obligations.ReadsChangeNoState := by
  intro s t off bytes rest ha hstep
  rw [step_of_agenda_cons s _ rest ha] at hstep
  obtain rfl := admitted_next off bytes _ t hstep
  obtain ⟨sda, inp, hread, hinp⟩ := hostRead_logs_readValue off { s with agenda := rest }
  rw [hread, readValue_withAgenda]
  exact ⟨rfl, rfl, rfl, rfl, ⟨sda, rfl⟩, hinp⟩

/-- Settles O34: read and write pass the same test, `accessRefusal`. -/
theorem onlyWordAccessesAreAdmitted : Obligations.OnlyWordAccessesAreAdmitted := by
  intro s off bytes v
  rw [← accessRefusal_eq_none_iff]
  constructor
  · intro hok
    exact ⟨admitted_of_none hok _, admitted_of_none hok _⟩
  · intro hno
    obtain ⟨r, hr⟩ := Option.ne_none_iff_exists'.mp hno
    exact ⟨r, admitted_of_some hr _, admitted_of_some hr _⟩

/-- Settles O27: zero extension keeps the value. -/
theorem cmdAndRxDataAccess : Obligations.CmdAndRxDataAccess := by
  intro s sda v
  refine ⟨?_, ?_, ?_, ?_⟩
  · rw [readValue_cmd, BitVec.toNat_setWidth_of_le (by decide)]
  · rw [readValue_rxData, BitVec.toNat_setWidth_of_le (by decide)]
  · exact hostWrite_other 0x08 v s (by decide) (by decide) (by decide)
  · exact hostWrite_other 0x10 v s (by decide) (by decide) (by decide)

/-- Settles O29: each sticky flag is kept unless its bit is written as 1. -/
theorem statusWriteClears : Obligations.StatusWriteClears := by
  intro s v hr
  rw [hostWrite_status v s hr, clearSticky]
  simp only [and_not_eq_ite]

/-- Settles O35: `step` is `act` of the head of the agenda; the word of `withFetchWord` is that head. -/
theorem stepRunsTheDecodedCommand : Obligations.StepRunsTheDecodedCommand := by
  refine ⟨fun s v rest i ha hi => ?_, fun s v rest op ha hop => ?_, fun s nbits w i hw => ?_, step_of_agenda_nil,
    fun s rest ha => step_of_agenda_cons s .tick rest ha⟩
  · exact (step_of_agenda_cons s _ rest ha).trans (commandStep_command v _ i hi)
  · exact (step_of_agenda_cons s _ rest ha).trans (commandStep_reserved v _ op hop)
  · exact commandStep_command _ s i ((Decoded.toOption_eq_some_iff _ i).mp hw)

end Sys2Proof.Machine

/-! PROOF. The statements about the encoding (spec/30_encoding.md): the two fields of a word, `decode` against `encode`, the
opcode map, the assembler, and what the machine does with ignored bits and reserved opcodes. -/

namespace Sys2Proof

/-! ### The fields of a word -/

theorem dataField_encode (i : Instr) : dataField (encode i) = i.data := by
  cases i <;> exact (Laws.OpcodeField.fields_of_append _ _).2

/-- A word is its two fields (R71). -/
theorem opcodeField_append_dataField (w : CmdWord) : opcodeField w ++ dataField w = w :=
  (BitVec.extractLsb'_append_extractLsb'_eq_extractLsb' rfl).trans BitVec.extractLsb'_eq_self

/-- A word is a command's if both its fields are. -/
theorem encode_eq_of_fields {w : CmdWord} {i : Instr} (hop : opcodeField w = i.op) (hdata : dataField w = i.data) :
    encode i = w := by
  rw [encode, ← hop, ← hdata, opcodeField_append_dataField]

theorem toNat_opcodeField (w : CmdWord) : (opcodeField w).toNat = w.toNat / 256 := by
  have hw := w.isLt
  rw [opcodeField, BitVec.extractLsb'_toNat, Nat.shiftRight_eq_div_pow]
  omega

theorem opcodeField_eq_iff (w : CmdWord) (op : BitVec 4) : opcodeField w = op ↔ w.toNat / 256 = op.toNat := by
  rw [← toNat_opcodeField, BitVec.toNat_inj]

/-- No command has a reserved opcode (R72, R75). -/
theorem op_toNat_range (i : Instr) : 1 ≤ i.op.toNat ∧ i.op.toNat ≤ 6 := by
  cases i <;> simp [Instr.op]

/-- Bit 0 of `SENDACK`'s data byte is its operand (R73). -/
theorem getLsbD_zero_append_ofBool (a : Level) (hi : BitVec 7) : (hi ++ BitVec.ofBool a).getLsbD 0 = a := by
  rw [BitVec.getLsbD_append]
  simp

/-- The operand of `SENDACK` and the seven bits above it are the data byte (R73). -/
theorem extractLsb'_append_ofBool_getLsbD {n : Nat} (x : BitVec n) :
    x.extractLsb' 1 7 ++ BitVec.ofBool (x.getLsbD 0) = x.extractLsb' 0 8 := by
  have hbit : BitVec.ofBool (x.getLsbD 0) = x.extractLsb' 0 1 := by
    ext j hj
    obtain rfl : j = 0 := by omega
    simp
  rw [hbit]
  exact BitVec.extractLsb'_append_extractLsb'_eq_extractLsb' rfl

/-! ### Decode and Encode -/

/-- `Decode` is a left inverse of the encoding (R82). -/
theorem decode_encode (i : Instr) : decode (encode i) = .command i := by
  unfold decode
  rw [Machine.opcodeField_encode, dataField_encode]
  cases i with
  | sendack a hi =>
    have hhi : (hi ++ BitVec.ofBool a).extractLsb' 1 7 = hi := BitVec.extractLsb'_append_eq_left
    simp only [Instr.op, Instr.data, getLsbD_zero_append_ofBool, hhi]
    rfl
  | _ => rfl

theorem encode_injective : Function.Injective encode := fun i j h =>
  Decoded.command.inj ((decode_encode i).symm.trans (h ▸ decode_encode j))

/-- What `Decode` can answer: the command whose word it is, or, for the opcodes R75 reserves, the opcode (R82). -/
theorem decode_cases (w : CmdWord) :
    (∃ i, decode w = .command i ∧ encode i = w) ∨
    (decode w = .reserved (opcodeField w) ∧ (w.toNat / 256 = 0 ∨ 7 ≤ w.toNat / 256)) := by
  unfold decode
  split_ifs with h1 h2 h3 h4 h5 h6
  · exact .inl ⟨_, rfl, encode_eq_of_fields h1 rfl⟩
  · exact .inl ⟨_, rfl, encode_eq_of_fields h2 rfl⟩
  · exact .inl ⟨_, rfl, encode_eq_of_fields h3 rfl⟩
  · exact .inl ⟨_, rfl, encode_eq_of_fields h4 rfl⟩
  · exact .inl ⟨_, rfl, encode_eq_of_fields h5 rfl⟩
  · have hdata := (extractLsb'_append_ofBool_getLsbD (dataField w)).trans BitVec.extractLsb'_eq_self
    exact .inl ⟨_, rfl, encode_eq_of_fields h6 hdata.symm⟩
  · simp only [opcodeField_eq_iff, BitVec.toNat_ofNat] at h1 h2 h3 h4 h5 h6
    exact .inr ⟨rfl, by omega⟩

/-- `Decode` and the encoding are inverse to each other where `Decode` answers a command (R82). -/
theorem decode_eq_command_iff (w : CmdWord) (i : Instr) : decode w = .command i ↔ encode i = w := by
  constructor
  · intro h
    rcases decode_cases w with ⟨j, hj, hw⟩ | ⟨hr, -⟩
    · obtain rfl := Decoded.command.inj (hj.symm.trans h)
      exact hw
    · cases hr.symm.trans h
  · rintro rfl
    exact decode_encode i

theorem decode_of_fields {w : CmdWord} {i : Instr} (hop : w.toNat / 256 = i.op.toNat) (hdata : dataField w = i.data) :
    decode w = .command i :=
  (decode_eq_command_iff w i).mpr (encode_eq_of_fields ((opcodeField_eq_iff w i.op).mpr hop) hdata)

/-- The reserved words are those whose opcode is 0x0 or 0x7 to 0xF (R75). -/
theorem decode_eq_reserved_iff (w : CmdWord) :
    decode w = .reserved (opcodeField w) ↔ w.toNat / 256 = 0 ∨ 7 ≤ w.toNat / 256 := by
  rcases decode_cases w with ⟨i, hi, rfl⟩ | ⟨hr, hop⟩
  · obtain ⟨hlo, hhi⟩ := op_toNat_range i
    rw [← toNat_opcodeField, Machine.opcodeField_encode]
    exact iff_of_false (by simp [hi]) (by omega)
  · exact iff_of_true hr hop

/-- A reserved word is rejected with its own opcode (R82). -/
theorem eq_opcodeField_of_decode_reserved {w : CmdWord} {op : BitVec 4} (h : decode w = .reserved op) :
    op = opcodeField w := by
  rcases decode_cases w with ⟨i, hi, -⟩ | ⟨hr, -⟩
  · cases hi.symm.trans h
  · exact Decoded.reserved.inj (h.symm.trans hr)

/-- Zeroing the ignored bits changes nothing exactly where they are zero (R74). -/
theorem canonical_eq_self_iff (i : Instr) : i.canonical = i ↔ i.isCanonical = true := by
  cases i with
  | sendb b => exact iff_of_true rfl rfl
  | sendba b => exact iff_of_true rfl rfl
  | sendack a hi => simpa [Instr.canonical, Instr.isCanonical] using eq_comm
  | start d => simpa [Instr.canonical, Instr.isCanonical] using eq_comm
  | stop d => simpa [Instr.canonical, Instr.isCanonical] using eq_comm
  | recvb d => simpa [Instr.canonical, Instr.isCanonical] using eq_comm

/-- A word is its opcode, shifted into place, or its data bits (R71). -/
theorem append_eq_shiftLeft_or (op : BitVec 4) (d : Byte) : op ++ d = op.setWidth 12 <<< 8 ||| d.setWidth 12 :=
  (BitVec.setWidth_eq (op ++ d)).symm.trans BitVec.setWidth_append_eq_shiftLeft_setWidth_or

theorem encode_sendb (b : Byte) : encode (.sendb b) = 0x300#12 ||| b.setWidth 12 := append_eq_shiftLeft_or 0x3#4 b
theorem encode_sendba (b : Byte) : encode (.sendba b) = 0x400#12 ||| b.setWidth 12 := append_eq_shiftLeft_or 0x4#4 b

theorem encode_sendack_zero (a : Level) : encode (.sendack a 0) = 0x600#12 ||| (BitVec.ofBool a).setWidth 12 := by
  cases a <;> decide

theorem encode_start_zero : encode (.start 0) = 0x100#12 := by decide
theorem encode_stop_zero : encode (.stop 0) = 0x200#12 := by decide
theorem encode_recvb_zero : encode (.recvb 0) = 0x500#12 := by decide

/-- Settles O5: every word is a command's or has a reserved opcode, and a word is its two fields. -/
theorem decodeOfEncodeIsIdentity : Obligations.DecodeOfEncodeIsIdentity := by
  refine ⟨decode_encode, fun w => ?_, fun w i => (decode_eq_command_iff w i).mp, fun w i h => ?_, fun d => ?_,
    fun a hi => ?_⟩
  · split
    case h_1 hop => exact decode_of_fields hop rfl
    case h_2 hop => exact decode_of_fields hop rfl
    case h_3 hop => exact decode_of_fields hop rfl
    case h_4 hop => exact decode_of_fields hop rfl
    case h_5 hop => exact decode_of_fields hop rfl
    case h_6 hop => exact decode_of_fields hop (extractLsb'_append_ofBool_getLsbD w).symm
    case h_7 h1 h2 h3 h4 h5 h6 =>
      simp only [imp_false] at h1 h2 h3 h4 h5 h6
      exact (decode_eq_reserved_iff w).mpr (by omega)
  · rw [← (decode_eq_command_iff w i).mp h, encode_injective.eq_iff, canonical_eq_self_iff]
  · exact ⟨encode_start_zero, encode_stop_zero, encode_sendb d, encode_sendba d, encode_recvb_zero⟩
  · exact encode_sendack_zero a

/-! ### The opcode map -/

/-- The command's row of the opcode map (R72). -/
def Instr.row (i : Instr) : OpcodeRow := ⟨i.mnemonic, i.op ++ 0#8, 0xF00#12⟩

/-- The rows of the map are the commands' rows. -/
theorem mem_opcodeMap_iff (r : OpcodeRow) : r ∈ opcodeMap ↔ ∃ i : Instr, i.row = r := by
  constructor
  · intro hr
    simp only [opcodeMap, List.mem_cons, List.not_mem_nil, or_false] at hr
    rcases hr with rfl | rfl | rfl | rfl | rfl | rfl
    · exact ⟨.start 0, rfl⟩
    · exact ⟨.stop 0, rfl⟩
    · exact ⟨.sendb 0, rfl⟩
    · exact ⟨.sendba 0, rfl⟩
    · exact ⟨.recvb 0, rfl⟩
    · exact ⟨.sendack false 0, rfl⟩
  · rintro ⟨i, rfl⟩
    cases i <;> simp [opcodeMap, Instr.row, Instr.mnemonic, Instr.op]

/-- A row is known by its mnemonic, and by its pattern (R72). -/
theorem opcodeMap_row_unique : ∀ r ∈ opcodeMap, ∀ r' ∈ opcodeMap,
    r.mnemonic = r'.mnemonic ∨ r.pattern = r'.pattern → r = r' := by
  decide

/-- The mask keeps the opcode alone (R72). -/
theorem and_opcodeMask (w : CmdWord) : w &&& 0xF00#12 = opcodeField w ++ 0#8 := by
  have hmask : 0xF00#12 = BitVec.allOnes 4 ++ 0#8 := by decide
  calc w &&& 0xF00#12 = (opcodeField w ++ dataField w) &&& (BitVec.allOnes 4 ++ 0#8) := by
        rw [opcodeField_append_dataField, hmask]
    _ = (opcodeField w &&& BitVec.allOnes 4) ++ (dataField w &&& 0#8) := BitVec.and_append
    _ = opcodeField w ++ 0#8 := by rw [BitVec.and_allOnes, BitVec.and_zero]

/-- A command's row selects exactly the words with its opcode (R72). -/
theorem row_selects_iff (i : Instr) (w : CmdWord) : i.row.selects w = true ↔ opcodeField w = i.op := by
  simp only [OpcodeRow.selects, Instr.row, beq_iff_eq, and_opcodeMask]
  exact BitVec.append_left_inj _

/-- Commands have the same mnemonic exactly where they have the same opcode (R72). -/
theorem mnemonic_eq_iff_op_eq (i j : Instr) : i.mnemonic = j.mnemonic ↔ i.op = j.op := by
  have hi := (mem_opcodeMap_iff _).mpr ⟨i, rfl⟩
  have hj := (mem_opcodeMap_iff _).mpr ⟨j, rfl⟩
  constructor
  · intro h
    have hrow := congrArg OpcodeRow.pattern (opcodeMap_row_unique _ hi _ hj (.inl h))
    exact (BitVec.append_left_inj _).mp hrow
  · intro h
    exact congrArg OpcodeRow.mnemonic (opcodeMap_row_unique _ hi _ hj (.inr (congrArg (· ++ 0#8) h)))

/-- A word with a command's opcode decodes to a command with that opcode (R72, R82). -/
theorem opcodeField_eq_op_iff (w : CmdWord) (i : Instr) :
    opcodeField w = i.op ↔ ∃ j, decode w = .command j ∧ j.op = i.op := by
  rcases decode_cases w with ⟨j, hj, rfl⟩ | ⟨hr, hop⟩
  · simp [hj, Machine.opcodeField_encode]
  · obtain ⟨hlo, hhi⟩ := op_toNat_range i
    rw [opcodeField_eq_iff]
    exact iff_of_false (by omega) (by simp [hr])

/-- Settles O6: a row's pattern under the mask is its command's opcode, and so is its mnemonic. -/
theorem opcodeMapSelectsTheCommand : Obligations.OpcodeMapSelectsTheCommand := by
  have selects (w : CmdWord) (i : Instr) :
      i.row.selects w = true ↔ ∃ j, decode w = .command j ∧ j.mnemonic = i.mnemonic := by
    simp only [row_selects_iff, opcodeField_eq_op_iff, mnemonic_eq_iff_op_eq]
  refine ⟨fun w r hr => ?_, fun w r hr r' hr' h h' => ?_, fun w => ⟨fun hnone => ?_, fun hres r hr => ?_⟩⟩
  · obtain ⟨i, rfl⟩ := (mem_opcodeMap_iff r).mp hr
    exact selects w i
  · refine opcodeMap_row_unique r hr r' hr' (.inr ?_)
    obtain ⟨i, rfl⟩ := (mem_opcodeMap_iff r).mp hr
    obtain ⟨j, rfl⟩ := (mem_opcodeMap_iff r').mp hr'
    rw [row_selects_iff] at h h'
    exact congrArg (· ++ 0#8) (h.symm.trans h')
  · rcases decode_cases w with ⟨i, hi, -⟩ | ⟨hr, -⟩
    · have hsel := (selects w i).mpr ⟨i, hi, rfl⟩
      simp [hnone i.row ((mem_opcodeMap_iff _).mpr ⟨i, rfl⟩)] at hsel
    · exact hr
  · obtain ⟨i, rfl⟩ := (mem_opcodeMap_iff r).mp hr
    rw [Bool.eq_false_iff, ne_eq, selects w i]
    rintro ⟨j, hj, -⟩
    cases hj.symm.trans hres

/-! ### The assembler -/

/-- A line with an operand assembles exactly where the operand is in range (R79). -/
theorem assemble_of_operand {l : Asm} {inRange : Prop} [Decidable inRange] {ws : List CmdWord}
    (hrange : l.wellFormed = decide inRange) (hwords : inRange → l.expand.map encode = ws) :
    l.assemble = if inRange then some ws else none := by
  unfold Asm.assemble
  by_cases h : inRange
  · simp [hrange, h, hwords h]
  · simp [hrange, h]

/-- A byte's number is the same number in a word. -/
theorem setWidth_ofNat_byte {n : Nat} (h : n ≤ 255) : (BitVec.ofNat 8 n).setWidth 12 = BitVec.ofNat 12 n := by
  refine BitVec.eq_of_toNat_eq ?_
  simp only [BitVec.toNat_setWidth, BitVec.toNat_ofNat]
  omega

/-- An address byte is twice the address, plus the direction (R81). -/
theorem addressByte_ofNat (a7 : Nat) (dir : Direction) :
    addressByte (BitVec.ofNat 7 a7) dir = BitVec.ofNat 8 (a7 * 2 + dir.bit.toNat) := by
  have hbit := dir.bit.toNat_lt
  refine BitVec.eq_of_toNat_eq ?_
  rw [addressByte, BitVec.toNat_append, BitVec.toNat_ofBool, ← Nat.shiftLeft_add_eq_or_of_lt hbit, Nat.shiftLeft_eq,
    BitVec.toNat_ofNat, BitVec.toNat_ofNat]
  omega
theorem assemble_sendb (b : Nat) :
    (Asm.sendb b).assemble = if b ≤ 255 then some [0x300#12 ||| BitVec.ofNat 12 b] else none :=
  assemble_of_operand rfl fun h => by simp [Asm.expand, encode_sendb, setWidth_ofNat_byte h]

theorem assemble_sendba (b : Nat) :
    (Asm.sendba b).assemble = if b ≤ 255 then some [0x400#12 ||| BitVec.ofNat 12 b] else none :=
  assemble_of_operand rfl fun h => by simp [Asm.expand, encode_sendba, setWidth_ofNat_byte h]

theorem assemble_sendack (a : Nat) :
    (Asm.sendack a).assemble = if a ≤ 1 then some [0x600#12 ||| BitVec.ofNat 12 a] else none :=
  assemble_of_operand rfl fun h => by interval_cases a <;> decide

/-- `SENDADDR` is `SENDBA` of the address byte (R80, R81). -/
theorem assemble_sendaddr (a7 : Nat) (dir : Direction) : (Asm.sendaddr a7 dir).assemble =
    if a7 ≤ 127 then some [0x400#12 ||| BitVec.ofNat 12 (a7 * 2 + dir.bit.toNat)] else none := by
  refine assemble_of_operand rfl fun h => ?_
  have hbyte : a7 * 2 + dir.bit.toNat ≤ 255 := by
    have := dir.bit.toNat_le
    omega
  simp [Asm.expand, encode_sendba, addressByte_ofNat, setWidth_ofNat_byte hbyte]

/-- Settles O9: a line with an operand by its own lemma, the eight without one by evaluation. -/
theorem assemblerWordsAndErrors : Obligations.AssemblerWordsAndErrors :=
  ⟨assemble_sendb, assemble_sendba, assemble_sendack, fun a7 => assemble_sendaddr a7 .write,
    fun a7 => assemble_sendaddr a7 .read, by decide⟩

/-- The assembler writes ignored bits as 0 (R74). -/
theorem expand_isCanonical (l : Asm) : l.expand.all Instr.isCanonical = true := by
  cases l <;> rfl

/-- Settles O7: `decode` evaluated on R83's words. -/
theorem workedEncodingsDecode : Obligations.WorkedEncodingsDecode := by
  unfold Obligations.WorkedEncodingsDecode
  decide

end Sys2Proof

namespace Sys2Proof.Machine

/-! ### Ignored bits and reserved opcodes in the machine -/

/-- A micro-operation does not look at `CMDREG`. -/
theorem perform_withCmdReg (u : Uop) (s : State) (w : CmdWord) :
    perform u { s with cmdReg := w } = { perform u s with cmdReg := w } := by
  cases u with
  | rd dest => cases dest <;> rfl
  | _ => rfl

theorem performAll_withCmdReg (us : List Uop) (s : State) (w : CmdWord) :
    performAll us { s with cmdReg := w } = { performAll us s with cmdReg := w } := by
  induction us generalizing s with
  | nil => rfl
  | cons u us ih => simp only [performAll_cons, perform_withCmdReg, ih]

/-- Acceptance sees of the word its opcode alone, but for storing it (R102). -/
theorem beginCommand_of_sameOpcode {w w' : CmdWord} (h : opcodeField w' = opcodeField w) (s : State) :
    beginCommand w' s = { beginCommand w s with cmdReg := w' } := by
  simp [beginCommand, h]

/-- Completion sees of `CMDREG` its opcode alone (R105). -/
theorem complete_of_sameOpcode {s : State} {w : CmdWord} (h : opcodeField w = opcodeField s.cmdReg) :
    complete { s with cmdReg := w } = { complete s with cmdReg := w } := by
  simp [complete, h]

/-- The micro-program does not depend on ignored bits (R74, R100). -/
theorem microProgram_canonical (i : Instr) : microProgram i.canonical = microProgram i := by
  cases i <;> rfl

theorem opcodeField_encode_canonical (i : Instr) : opcodeField (encode i.canonical) = opcodeField (encode i) := by
  rw [opcodeField_encode, opcodeField_encode]
  cases i <;> rfl

/-- The busy test comes first (R102). -/
theorem accept_busy (w : CmdWord) {s : State} (hb : s.busy = true) : accept w s = { s with ovr := true } :=
  if_pos hb

/-- A reserved opcode is accepted as nothing but the illegal-command event (R75, R102). -/
theorem accept_reserved {w : CmdWord} {op : BitVec 4} (hop : decode w = .reserved op) {s : State} (hb : s.busy = false) :
    accept w s = { s with ill := true } := by
  simp [accept, hb, hop, raiseIll]

/-- Settles O8: acceptance, micro-program and completion read the opcode and the operand alone. -/
theorem ignoredBitsAreStoredAndHaveNoEffect : Obligations.IgnoredBitsAreStoredAndHaveNoEffect := by
  refine ⟨fun i s hs => ⟨_, exec_ready i s hs, ?_, fun sda => ?_⟩, fun l => List.all_eq_true.mp (expand_isCanonical l)⟩
  · have hop := opcodeField_encode_canonical i
    rw [exec_ready i.canonical s hs, microProgram_canonical, beginCommand_of_sameOpcode hop, performAll_withCmdReg,
      complete_of_sameOpcode (by simpa using hop)]
  · simp [readValue_cmd]

/-- Settles O15: a reserved word is rejected with its own opcode, and `Accept` has no other branch left for it. -/
theorem reservedOpcodeSetsIllOnly : Obligations.ReservedOpcodeSetsIllOnly := by
  refine ⟨fun w => ?_, fun v s op hr hop => ?_⟩
  · rw [← decode_eq_reserved_iff]
    exact ⟨fun h => ⟨_, h⟩, fun ⟨op, h⟩ => eq_opcodeField_of_decode_reserved h ▸ h⟩
  · rw [hostWrite_cmd v s hr]
    exact ⟨accept_reserved hop, accept_busy _⟩

end Sys2Proof.Machine

/-! PROOF. The statements about the line driver (spec/40_line_driver.md): the whole effect of each of the three
micro-operations. -/

namespace Sys2Proof.Machine

/-! ### The micro-operations, by the event recorded and the sample drawn -/

/-- `SD(l)`, once the event it makes is known (R92). -/
theorem perform_sd_of_event (e : LineEvent) (l : Level) (s : State) (h : sdEvent s.sclOut s.sdaOut l = e) :
    perform (.sd l) s = { s with sdaOut := l, session := sessionAfter e s.session, hist := s.hist ++ [e] } := by
  subst h
  rfl

/-- `RD()`, once the level it draws is known (R93, R104). -/
theorem perform_rd_of_draw {v : Level} {inp : SdaInput} (d : RdDest) (s : State) (h : s.sdaIn.draw = (v, inp)) :
    perform (.rd d) s = storeSample d v { s with sdaIn := inp, hist := s.hist ++ [.rd v] } := by
  simp only [perform, readData, h]

/-! ### The obligations -/

/-- Settles O12: the store of the one draw is `recordAck` or `putBit`. -/
theorem readDataMicroOperation : Obligations.ReadDataMicroOperation := by
  intro s v inp hdraw
  refine ⟨?_, fun i => ⟨putBit s.rxShift i v, perform_rd_of_draw (.rxShift i) s hdraw, ?_, fun j hj => ?_⟩⟩
  · have hnack : (s.nackF || v) = if v = true then true else s.nackF := by simp [Bool.or_comm]
    rw [perform_rd_of_draw .ackIn s hdraw, ← hnack]
    rfl
  · rw [byteBit_putBit, if_pos rfl]
  · rw [byteBit_putBit, if_neg hj]

/-- Settles O10: `SC(l)` is these two assignments. -/
theorem setClockMicroOperation : Obligations.SetClockMicroOperation := fun _ _ => rfl

/-- Settles O11: the outputs before the micro-operation decide its event, and with it `SESSION`. -/
theorem setDataMicroOperation : Obligations.SetDataMicroOperation := by
  refine fun l s => ⟨fun ⟨hc, hd, hl⟩ => ?start, fun ⟨hc, hd, hl⟩ => ?stop, fun h => ?none⟩
  case start => exact perform_sd_of_event .start l s (by simp [sdEvent, hc, hd, hl])
  case stop => exact perform_sd_of_event .stop l s (by simp [sdEvent, hc, hd, hl])
  case none =>
    have hsd : sdEvent s.sclOut s.sdaOut l = .sd l := by
      rcases h with hc | hd
      · rw [hc, sdEvent_clockLow]
      · rw [hd, sdEvent_same]
    exact perform_sd_of_event (.sd l) l s hsd

end Sys2Proof.Machine

/-! PROOF. The statements about the timing state machine (spec/41_timing_fsm.md): what acceptance, a tick and completion do,
the whole run of a command tick by tick, and what no agent can do to a command that runs. -/

namespace Sys2Proof.Machine

/-! ### The micro-programs -/

/-- Micro-step `k` of the eight sent bits, by R100's index formula. -/
theorem shiftOut_getElem? (b : Byte) {k : Nat} (hk : k ≤ 23) : (shiftOut b)[k]? =
    some (if k % 3 = 0 then .sd (b.getLsbD (7 - k / 3)) else if k % 3 = 1 then .sc true else .sc false) := by
  interval_cases k <;> rfl

/-- What follows the eight sent bits does not reach into their micro-steps (R100). -/
theorem shiftOut_append_getElem? (b : Byte) (us : List Uop) {k : Nat} (hk : k ≤ 23) :
    (shiftOut b ++ us)[k]? = (shiftOut b)[k]? :=
  List.getElem?_append_left (Nat.lt_succ_of_le hk)

theorem len_pos (i : Instr) : 0 < Instr.len i := by
  cases i <;> exact Nat.succ_pos _

/-! ### Acceptance and completion -/

/-- An idle block accepts a command (R102). -/
theorem accept_command {w : CmdWord} {i : Instr} (hi : decode w = .command i) {s : State} (hb : s.busy = false) :
    accept w s = beginCommand w s := by
  simp [accept, hb, hi]

/-- The write of `CMD` by which a host issues a command, to a ready block (R102). -/
theorem hostWrite_cmdWrite (i : Instr) {s : State} (h : s.Ready) :
    hostWrite 0x00 (cmdWrite i) s = beginCommand (encode i) s := by
  obtain ⟨hr, hb⟩ := h
  have hw : cmdOfWrite (cmdWrite i) = encode i := cmdOfWrite_setWidth (encode i)
  rw [hostWrite_cmd _ s hr, hw, accept_command (decode_encode i) hb]

/-- The agenda is nothing to a command (R101, R112). -/
theorem complete_performAll_withAgenda (us : List Uop) (w : CmdWord) (s : State) (as : List Action) :
    complete (performAll us (beginCommand w { s with agenda := as })) =
      { complete (performAll us (beginCommand w s)) with agenda := as } := by
  have hbegin : beginCommand w { s with agenda := as } = { beginCommand w s with agenda := as } := rfl
  rw [hbegin, performAll_withAgenda]
  rfl

/-! ### The tick, branch by branch (R103) -/

theorem tick_idle {s : State} (hb : s.busy = false) : tick s = .next s := by
  simp [tick, hb]

theorem tick_wait {s : State} (hr : s.rst = false) (hb : s.busy = true) (hd : s.settle ≠ 0) :
    tick s = .next { s with settle := s.settle - 1 } := by
  unfold tick
  rw [if_neg (by simp [hr]), if_neg (by simp [hb]), if_pos hd]

theorem tick_command {s : State} {i : Instr} (hr : s.rst = false) (hb : s.busy = true) (hd : s.settle = 0)
    (hi : decode s.cmdReg = .command i) : tick s = .next (microStep i s) := by
  simp [tick, hr, hb, hd, hi]

theorem microStep_of_getElem? {i : Instr} {u : Uop} {s : State} (h : (microProgram i)[s.upc.toNat]? = some u) :
    microStep i s = { perform u s with upc := s.upc + 1, settle := s.tSettle } := by
  simp [microStep, h]

theorem microStep_of_len_le {i : Instr} {s : State} (h : Instr.len i ≤ s.upc.toNat) : microStep i s = complete s := by
  simp [microStep, List.getElem?_eq_none_iff.mpr h]

/-- No tick writes `CMDREG` or `TSETTLE` (R103). -/
theorem tick_cmdReg_tSettle {s t : State} (h : tick s = .next t) : t.cmdReg = s.cmdReg ∧ t.tSettle = s.tSettle := by
  rcases tick_cases s t h with ⟨rfl, -⟩ | ⟨-, -, -, rfl⟩ | ⟨-, -, -, i, -, ⟨u, -, -, rfl⟩ | ⟨-, rfl⟩⟩
  · exact ⟨rfl, rfl⟩
  · exact ⟨rfl, rfl⟩
  · exact ⟨perform_cmdReg u s, perform_tSettle u s⟩
  · exact ⟨rfl, rfl⟩

/-! ### The phases (R109) -/

theorem phase_idle {s : State} (hb : s.busy = false) : s.phase = some .idle := by
  simp [State.phase, hb]

theorem phase_wait {s : State} (hb : s.busy = true) (hd : s.settle ≠ 0) : s.phase = some .wait := by
  unfold State.phase
  rw [if_neg (by simp [hb]), if_pos hd]

theorem busy_of_phase_idle {s : State} (h : s.phase = some .idle) : s.busy = false := by
  by_contra hb
  unfold State.phase at h
  rw [if_neg (by simp [hb])] at h
  split at h
  · cases h
  · split at h
    · split at h <;> cases h
    · cases h

section
variable {s : State} {i : Instr} (hb : s.busy = true) (hd : s.settle = 0) (hi : decode s.cmdReg = .command i)
include hb hd hi

theorem phase_exec (hu : s.upc.toNat < Instr.len i) : s.phase = some .exec := by
  simp [State.phase, hb, hd, hi, hu]

theorem phase_done (hu : Instr.len i ≤ s.upc.toNat) : s.phase = some .done := by
  simp [State.phase, hb, hd, hi, Nat.not_lt.mpr hu]

/-- With the delay over, a command performs its next micro-operation or completes. -/
theorem phase_exec_or_done : s.phase = some .exec ∨ s.phase = some .done :=
  (Nat.lt_or_ge s.upc.toNat (Instr.len i)).imp (phase_exec hb hd hi) (phase_done hb hd hi)

end

/-! ### The state in the middle of a command -/

/-- The command `i` accepted in `s`, after `k` of its micro-operations and with `d` ticks of delay left (R107). -/
def State.inCommand (s : State) (i : Instr) (k d : Nat) : State :=
  { performAll ((microProgram i).take k) (beginCommand (encode i) s) with
    upc := BitVec.ofNat 5 k, settle := BitVec.ofNat 16 d }

/-- Acceptance is the state before the first micro-operation (R102). -/
theorem inCommand_zero (s : State) (i : Instr) : s.inCommand i 0 0 = beginCommand (encode i) s := rfl

@[simp] theorem inCommand_rst (s : State) (i : Instr) (k d : Nat) : (s.inCommand i k d).rst = s.rst :=
  performAll_rst _ _
@[simp] theorem inCommand_busy (s : State) (i : Instr) (k d : Nat) : (s.inCommand i k d).busy = true :=
  performAll_busy _ _
@[simp] theorem inCommand_cmdReg (s : State) (i : Instr) (k d : Nat) : (s.inCommand i k d).cmdReg = encode i :=
  performAll_cmdReg _ _
@[simp] theorem inCommand_tSettle (s : State) (i : Instr) (k d : Nat) : (s.inCommand i k d).tSettle = s.tSettle :=
  performAll_tSettle _ _
@[simp] theorem inCommand_agenda (s : State) (i : Instr) (k d : Nat) : (s.inCommand i k d).agenda = s.agenda :=
  performAll_agenda _ _
@[simp] theorem inCommand_upc (s : State) (i : Instr) (k d : Nat) : (s.inCommand i k d).upc = BitVec.ofNat 5 k := rfl
@[simp] theorem inCommand_settle (s : State) (i : Instr) (k d : Nat) :
    (s.inCommand i k d).settle = BitVec.ofNat 16 d := rfl

theorem decode_inCommand (s : State) (i : Instr) (k d : Nat) : decode (s.inCommand i k d).cmdReg = .command i := by
  rw [inCommand_cmdReg, decode_encode]

/-- `UPC` is wide enough for every micro-step of every command (R5, R18). -/
theorem inCommand_upc_toNat (s : State) {i : Instr} {k : Nat} (d : Nat) (hk : k ≤ Instr.len i) :
    (s.inCommand i k d).upc.toNat = k := by
  have hlen := len_le i
  exact Nat.mod_eq_of_lt (by omega)

/-- The next micro-operation is one more performed; it leaves the counters to the sequencer (R103, R104). -/
theorem perform_inCommand (s : State) {i : Instr} {k : Nat} {u : Uop} (d : Nat) (hu : (microProgram i)[k]? = some u) :
    perform u (s.inCommand i k d) = { s.inCommand i (k + 1) d with upc := BitVec.ofNat 5 k } := by
  have htake : (microProgram i).take (k + 1) = (microProgram i).take k ++ [u] := by
    rw [List.take_add_one, hu, Option.toList_some]
  rw [State.inCommand, perform_withCounters, State.inCommand, htake, performAll_append]
  rfl

section
variable {s : State} (hr : s.rst = false)
include hr

/-- A tick with delay left counts it down. -/
theorem tick_inCommand_wait (i : Instr) (k : Nat) {d : Nat} (hd : d < s.tSettle.toNat) :
    tick (s.inCommand i k (d + 1)) = .next (s.inCommand i k d) := by
  have hlt := s.tSettle.isLt
  have hne : BitVec.ofNat 16 (d + 1) ≠ 0 := by bv_omega
  have hdec : BitVec.ofNat 16 (d + 1) - 1 = BitVec.ofNat 16 d := by bv_omega
  rw [tick_wait (by simp [hr]) (by simp) hne, inCommand_settle, hdec]
  rfl

/-- A tick with the delay over performs the next micro-operation and loads the delay. -/
theorem tick_inCommand_perform {i : Instr} {k : Nat} (hk : k < Instr.len i) :
    tick (s.inCommand i k 0) = .next (s.inCommand i (k + 1) s.tSettle.toNat) := by
  obtain ⟨u, hu⟩ : ∃ u, (microProgram i)[k]? = some u := ⟨_, List.getElem?_eq_getElem hk⟩
  have hget : (microProgram i)[(s.inCommand i k 0).upc.toNat]? = some u := by
    rw [inCommand_upc_toNat s 0 hk.le, hu]
  rw [tick_command (by simp [hr]) (by simp) rfl (decode_inCommand s i k 0), microStep_of_getElem? hget,
    perform_inCommand s 0 hu]
  simp [State.inCommand, BitVec.ofNat_add]

/-- The tick after the last delay completes the command. -/
theorem tick_inCommand_complete (i : Instr) : tick (s.inCommand i (Instr.len i) 0) =
    .next (complete (performAll (microProgram i) (beginCommand (encode i) s))) := by
  have hupc := inCommand_upc_toNat s 0 (le_refl (Instr.len i))
  rw [tick_command (by simp [hr]) (by simp) rfl (decode_inCommand s i _ 0), microStep_of_len_le hupc.ge]
  simp [State.inCommand, Instr.len, complete]

end

/-! ### Runs in which only the clock ticks -/

/-- Nothing is listed, or the host polls: while `BUSY = 1`, each step is a tick (R101, R160). -/
def State.Awaiting (s : State) : Prop := s.agenda = [] ∨ ∃ rest, s.agenda = .poll :: rest

theorem step_awaiting {s : State} (h : s.Awaiting) (hb : s.busy = true) : step s = tick s := by
  rcases h with ha | ⟨rest, ha⟩
  · exact step_of_agenda_nil s ha
  · exact step_poll_busy s rest ha hb

theorem run_idle (n : Nat) {s : State} (hb : s.busy = false) (ha : s.agenda = []) : run n s = .next s := by
  have hstep : step s = .next s := (step_of_agenda_nil s ha).trans (tick_idle hb)
  induction n with
  | zero => rfl
  | succ n ih => rw [run_succ_next n s s hstep, ih]

theorem step_inCommand {s : State} (ha : s.Awaiting) (i : Instr) (k d : Nat) :
    step (s.inCommand i k d) = tick (s.inCommand i k d) :=
  step_awaiting (by simpa [State.Awaiting] using ha) (by simp)

section
variable {s : State} (hr : s.rst = false) (ha : s.Awaiting)
include hr ha

/-- `n` ticks from acceptance, before completion: `k` micro-operations are performed and `d` ticks of the last delay are left,
where each micro-operation takes `TSETTLE + 1` ticks (R107). -/
theorem run_inCommand (i : Instr) (n k d : Nat) (hn : n ≤ Instr.len i * (s.tSettle.toNat + 1))
    (hd : d ≤ s.tSettle.toNat) (hk : n + d = k * (s.tSettle.toNat + 1)) :
    run n (beginCommand (encode i) s) = .next (s.inCommand i k d) := by
  induction n generalizing k d with
  | zero =>
    obtain rfl : k = 0 := by
      by_contra hne
      have := Nat.le_mul_of_pos_left (s.tSettle.toNat + 1) (Nat.pos_of_ne_zero hne)
      omega
    obtain rfl : d = 0 := by omega
    rw [run_zero, inCommand_zero]
  | succ n ih =>
    rcases hd.lt_or_eq with hlt | rfl
    · rw [run_add n 1 _ _ (ih k (d + 1) (by omega) hlt (by omega)), run_one, step_inCommand ha,
        tick_inCommand_wait hr i k hlt]
    · obtain ⟨k, rfl⟩ : ∃ m, k = m + 1 := Nat.exists_eq_succ_of_ne_zero (by rintro rfl; omega)
      rw [Nat.succ_mul] at hk
      have hprev : n = k * (s.tSettle.toNat + 1) := by omega
      have hlen : k < Instr.len i := Nat.lt_of_mul_lt_mul_right (a := s.tSettle.toNat + 1) (by omega)
      rw [run_add n 1 _ _ (ih k 0 (by omega) (Nat.zero_le _) hprev), run_one, step_inCommand ha,
        tick_inCommand_perform hr hlen]

/-- The command's last tick leaves it complete (R108). -/
theorem run_ticksOf (i : Instr) : run (ticksOf i s.tSettle) (beginCommand (encode i) s) =
    .next (complete (performAll (microProgram i) (beginCommand (encode i) s))) := by
  have hlast := run_inCommand hr ha i (Instr.len i * (s.tSettle.toNat + 1)) (Instr.len i) 0 le_rfl (Nat.zero_le _) rfl
  rw [ticksOf, run_add _ 1 _ _ hlast, run_one, step_inCommand ha, tick_inCommand_complete hr]

end

/-- `n` ticks need `(n + T) / (T + 1)` periods of `T + 1` ticks to cover them, with at most `T` ticks over (R107). -/
theorem periods_cover (n T : Nat) :
    n ≤ (n + T) / (T + 1) * (T + 1) ∧ (n + T) / (T + 1) * (T + 1) ≤ n + T := by
  have hdiv := Nat.div_add_mod' (n + T) (T + 1)
  have hmod : (n + T) % (T + 1) < T + 1 := Nat.mod_lt _ T.succ_pos
  omega

/-- R107 from acceptance on: `run_inCommand` with the micro-operations counted by division. -/
theorem run_timeline {s : State} (hs : s.Ready) (ha : s.agenda = []) (i : Instr) {n k : Nat}
    (hn : n < ticksOf i s.tSettle) (hk : k = (n + s.tSettle.toNat) / (s.tSettle.toNat + 1)) :
    run n (hostWrite 0x00 (cmdWrite i) s) = .next (s.inCommand i k (k * (s.tSettle.toNat + 1) - n)) := by
  obtain ⟨hle, hge⟩ := periods_cover n s.tSettle.toNat
  rw [← hk] at hle hge
  rw [hostWrite_cmdWrite i hs]
  exact run_inCommand hs.1 (.inl ha) i n k _ (Nat.le_of_lt_succ hn) (by omega) (by omega)

/-! ### The polling idiom, step by step (R160) -/

theorem step_poll_idle {s : State} {rest : List Action} (ha : s.agenda = .poll :: rest) (hb : s.busy = false) :
    step s = .next { s with agenda := rest } := by
  rw [step_of_agenda_cons s _ rest ha]
  simp [act, pollStep, hb]

/-- The host's write of a command, as a step of a ready block. -/
theorem step_cmdWrite {s : State} {i : Instr} {rest : List Action}
    (ha : s.agenda = .write 0x00 4 (cmdWrite i) :: rest) (hs : s.Ready) :
    step s = .next (beginCommand (encode i) { s with agenda := rest }) := by
  have haccept : hostWrite 0x00 (cmdWrite i) { s with agenda := rest } = _ := hostWrite_cmdWrite i hs
  rw [step_of_agenda_cons s _ rest ha, ← haccept]
  rfl

/-- The command-level step of a command (R112). -/
theorem step_command {s : State} {i : Instr} {rest : List Action} (ha : s.agenda = .command (cmdWrite i) :: rest) :
    step s = exec i { s with agenda := rest } := by
  have hi : decode (cmdOfWrite (cmdWrite i)) = .command i := by
    rw [cmdWrite, cmdOfWrite_setWidth, decode_encode]
  obtain ⟨hcommand, -⟩ := stepRunsTheDecodedCommand
  exact hcommand s _ rest i ha hi

/-! ### What the host can do to a command that runs -/

/-- A host write to a busy block reaches the sticky flags alone (R102, R110). -/
theorem hostWrite_busy_cases (off : Nat) (v : RegWord) {s : State} (hb : s.busy = true) :
    hostWrite off v s = s ∨ hostWrite off v s = raiseOvr s ∨ hostWrite off v s = clearSticky v s := by
  rcases hostWrite_cases off v s with h | ⟨-, -, h⟩ | ⟨-, hb', -⟩ | ⟨-, hb', -⟩ | ⟨-, -, h⟩ | ⟨-, hb', -⟩
  · exact .inl h
  · exact .inr (.inl h)
  · cases hb.symm.trans hb'
  · cases hb.symm.trans hb'
  · exact .inr (.inr h)
  · cases hb.symm.trans hb'

theorem hostWrite_busy_frame (off : Nat) (v : RegWord) {s : State} (hb : s.busy = true) :
    (hostWrite off v s).registers = { s.registers with
      nackF := (hostWrite off v s).nackF, ovr := (hostWrite off v s).ovr, ill := (hostWrite off v s).ill } ∧
    (hostWrite off v s).hist = s.hist := by
  rcases hostWrite_busy_cases off v hb with h | h | h <;> rw [h] <;> exact ⟨rfl, rfl⟩

/-- A command issued to a busy block does nothing (`rst` held at 1) or raises `OVR` (R102, R190). -/
theorem commandStep_busy_cases (v : RegWord) {s t : State} (hb : s.busy = true) (h : commandStep v s = .next t) :
    t = s ∨ t = raiseOvr s := by
  cases hd : decode (cmdOfWrite v) with
  | command i =>
    rw [commandStep_command v s i hd] at h
    rcases exec_cases i s with ⟨-, he⟩ | ⟨-, -, he⟩ | ⟨-, hb', -⟩
    · exact .inl (Host.Outcome.next.inj (h.symm.trans he))
    · exact .inr (Host.Outcome.next.inj (h.symm.trans he))
    · cases hb.symm.trans hb'
  | reserved op =>
    rw [commandStep_reserved v s op hd] at h
    obtain rfl := Host.Outcome.next.inj h
    cases hr : s.rst with
    | true => exact .inl (hostWrite_held 0x00 v s hr)
    | false => exact .inr ((hostWrite_cmd v s hr).trans (accept_busy _ hb))

/-- A step that is a host read changes no register and no history (R42). -/
theorem step_read_frame {s t : State} {off bytes : Nat} {rest : List Action} (ha : s.agenda = .read off bytes :: rest)
    (h : step s = .next t) : t.registers = s.registers ∧ t.hist = s.hist := by
  obtain ⟨hregs, hhist, -⟩ := readsChangeNoState s t off bytes rest ha h
  exact ⟨hregs, hhist⟩

section
variable {s t : State} {rest : List Action} (hb : s.busy = true) (h : step s = .next t)
include hb h

theorem step_write_busy_frame {off bytes : Nat} {v : RegWord} (ha : s.agenda = .write off bytes v :: rest) :
    t.registers = { s.registers with nackF := t.nackF, ovr := t.ovr, ill := t.ill } ∧ t.hist = s.hist := by
  rw [step_of_agenda_cons s _ rest ha] at h
  obtain rfl := admitted_next off bytes _ t h
  exact hostWrite_busy_frame off v (s := { s with agenda := rest }) hb

theorem step_command_busy_frame {v : RegWord} (ha : s.agenda = .command v :: rest) :
    t.registers = { s.registers with ovr := t.ovr } ∧ t.hist = s.hist := by
  rw [step_of_agenda_cons s _ rest ha] at h
  change commandStep v { s with agenda := rest } = .next t at h
  rcases commandStep_busy_cases v (s := { s with agenda := rest }) hb h with rfl | rfl <;> exact ⟨rfl, rfl⟩

end

/-- A tick that clears `BUSY` is the completion of the command (R105). -/
theorem tick_clears_busy {s t : State} (h : tick s = .next t) (hb : s.busy = true) (ht : t.busy = false) :
    ∃ i, decode s.cmdReg = .command i ∧ s.settle = 0 ∧ Instr.len i ≤ s.upc.toNat := by
  rcases tick_cases s t h with ⟨rfl, -⟩ | ⟨-, -, -, rfl⟩ | ⟨-, -, hd, i, hi, ⟨u, -, -, rfl⟩ | ⟨hu, rfl⟩⟩
  · cases hb.symm.trans ht
  · cases hb.symm.trans ht
  · cases hb.symm.trans ((perform_busy u s).symm.trans ht)
  · exact ⟨i, hi, hd, hu⟩

theorem setRst_clears_busy {l : Level} {s : State} (hb : s.busy = true) (ht : (setRst l s).busy = false) : l = true := by
  rcases setRst_cases l s with ⟨hl, -, -⟩ | ⟨-, h⟩
  · exact hl
  · rw [h] at ht
    cases hb.symm.trans ht

/-- A step that clears `BUSY` is a reset step, or a tick (a poll is one) that completes the command (R105, R110). -/
theorem step_clears_busy {s t : State} (h : step s = .next t) (hb : s.busy = true) (ht : t.busy = false) :
    (∃ rest, s.agenda = .rst true :: rest) ∨
    ∃ i, decode s.cmdReg = .command i ∧ s.settle = 0 ∧ Instr.len i ≤ s.upc.toNat := by
  have kept (hset : t.busy = true) : False := by simp [ht] at hset
  cases ha : s.agenda with
  | nil => exact .inr (tick_clears_busy ((step_of_agenda_nil s ha).symm.trans h) hb ht)
  | cons a rest =>
    cases a with
    | tick =>
      rw [step_of_agenda_cons s _ rest ha] at h
      exact .inr (tick_clears_busy (s := { s with agenda := rest }) h hb ht)
    | read off bytes =>
      obtain ⟨hregs, -⟩ := step_read_frame ha h
      exact (kept ((congrArg Registers.busy hregs).trans hb)).elim
    | write off bytes v =>
      obtain ⟨hregs, -⟩ := step_write_busy_frame hb h ha
      exact (kept ((congrArg Registers.busy hregs).trans hb)).elim
    | rst l =>
      rw [step_of_agenda_cons s _ rest ha] at h
      obtain rfl := Host.Outcome.next.inj h
      obtain rfl := setRst_clears_busy (s := { s with agenda := rest }) hb ht
      exact .inl ⟨rest, rfl⟩
    | poll => exact .inr (tick_clears_busy ((step_poll_busy s rest ha hb).symm.trans h) hb ht)
    | command v =>
      obtain ⟨hregs, -⟩ := step_command_busy_frame hb h ha
      exact (kept ((congrArg Registers.busy hregs).trans hb)).elim

/-! ### The obligations -/

/-- Settles O14: `Accept` on the word written; opcode 0x5 is `RECVB` alone. -/
theorem acceptCases : Obligations.AcceptCases := by
  intro v s hr
  rw [hostWrite_cmd v s hr]
  refine ⟨accept_busy _, fun hb i hi => ?_, fun hb op hop => accept_reserved hop hb⟩
  change decode (cmdOfWrite v) = .command i at hi
  rw [accept_command hi hb]
  have hop : opcodeField (cmdOfWrite v) = i.op := (opcodeField_eq_op_iff _ i).mpr ⟨i, hi, rfl⟩
  unfold beginCommand
  rw [hop]
  cases i <;> rfl

/-- Settles O20: the tick takes the last branch of R103; opcode 0x5 is `RECVB` alone. -/
theorem completionEffect : Obligations.CompletionEffect := by
  intro s i hr hb hd hi hu
  have hop : opcodeField s.cmdReg = i.op := (opcodeField_eq_op_iff _ i).mpr ⟨i, hi, rfl⟩
  rw [tick_command hr hb hd hi, microStep_of_len_le hu.ge]
  unfold complete
  rw [hop]
  cases i <;> rfl

/-- Settles O21: each step is an idle tick. -/
theorem idleTicksChangeNothing : Obligations.IdleTicksChangeNothing := fun n _ hb ha => run_idle n hb ha

/-- Settles O17: the two send commands share their first 24 entries; the rest is read off the programs. -/
theorem microProgramTable : Obligations.MicroProgramTable := by
  refine ⟨fun _ => rfl, fun _ => rfl, fun _ _ => rfl, fun _ => ⟨rfl, rfl, rfl⟩, fun b k hk => ?_, fun _ => ⟨rfl, rfl⟩,
    fun _ => rfl, fun d i => ?_⟩
  · have hentry := shiftOut_getElem? b hk
    exact ⟨(shiftOut_append_getElem? b _ hk).trans hentry, (shiftOut_append_getElem? b _ hk).trans hentry⟩
  · fin_cases i <;> exact ⟨rfl, rfl, rfl⟩

/-- Settles O18: the branches of `tick`, and the two of `microStep`. -/
theorem tickCases : Obligations.TickCases := by
  refine fun s hr => ⟨tick_idle, tick_wait hr, fun hb hd i hi => ?_⟩
  rw [tick_command hr hb hd hi]
  constructor
  · intro hu
    rw [microStep_of_getElem? (List.getElem?_eq_getElem hu)]
  · intro hu
    rw [microStep_of_len_le hu]

/-- Settles O22: the run from acceptance, as a state in the middle of the command. -/
theorem timelineOfACommand : Obligations.TimelineOfACommand := by
  intro i s n k hs ha hn hk
  rw [run_timeline hs ha i hn hk, hostWrite_cmdWrite i hs, State.inCommand]

/-- Settles O23: before the last tick the command is under way, and the last tick completes it. -/
theorem everyCommandCompletesOnTime : Obligations.EveryCommandCompletesOnTime := by
  refine ⟨fun i s hs ha => ⟨?_, fun n hn => ?_⟩, fun d a hi T => ⟨rfl, rfl, rfl, rfl, rfl, rfl⟩⟩
  · rw [hostWrite_cmdWrite i hs]
    exact ⟨_, run_ticksOf hs.1 (.inl ha) i, rfl⟩
  · exact ⟨_, run_timeline hs ha i hn rfl, inCommand_busy s i _ _⟩

/-- Settles O24: both are the micro-program between acceptance and completion. -/
theorem commandLevelViewIsTheTickLevelRun : Obligations.CommandLevelViewIsTheTickLevelRun := by
  intro i s hs ha
  rw [hostWrite_cmdWrite i hs, run_ticksOf hs.1 (.inl ha) i, exec_ready i s hs]

/-- Settles O25: the first poll finds the block idle, the write is accepted, and the second poll waits for its completion. -/
theorem pollingIdiomIsOneTransition : Obligations.PollingIdiomIsOneTransition := by
  intro i s rest hs
  obtain ⟨hr, hb⟩ := hs
  have hpoll : step { s with agenda := issueIdiom i ++ rest } =
      .next { s with agenda := .write 0x00 4 (cmdWrite i) :: .poll :: rest } := step_poll_idle rfl hb
  have hwrite : step { s with agenda := .write 0x00 4 (cmdWrite i) :: .poll :: rest } =
      .next (beginCommand (encode i) { s with agenda := .poll :: rest }) := step_cmdWrite rfl ⟨hr, hb⟩
  have hwait := run_ticksOf (s := { s with agenda := .poll :: rest }) hr (.inr ⟨rest, rfl⟩) i
  have hdone : step (complete (performAll (microProgram i) (beginCommand (encode i) { s with agenda := .poll :: rest }))) =
      exec i { s with agenda := rest } := by
    rw [step_poll_idle (rest := rest) (by simp) rfl, exec_ready i { s with agenda := rest } ⟨hr, hb⟩]
    exact congrArg _ (complete_performAll_withAgenda (microProgram i) (encode i) _ rest).symm
  rw [run_succ_next _ _ _ hpoll, run_succ_next _ _ _ hwrite, run_add _ 1 _ _ hwait, run_one, run_one, hdone,
    step_command rfl]

/-- Settles O19: each phase fixes the tick's branch, and the invariant fixes the opcode and bounds `UPC`. -/
theorem phasesOfTheStateMachine : Obligations.PhasesOfTheStateMachine := by
  intro s hinv hr
  refine ⟨?_, fun i hidle => ?_, rfl, ?_⟩
  · by_cases hb : s.busy = true
    case neg =>
      rw [Bool.not_eq_true] at hb
      exact ⟨s, tick_idle hb, .inl ⟨phase_idle hb, hb, rfl⟩⟩
    obtain ⟨i, hi, hle⟩ := hinv.busyCommand hb
    by_cases hd : s.settle = 0
    case neg =>
      refine ⟨_, tick_wait hr hb hd, .inr (.inr (.inl ⟨phase_wait hb hd, hb, hd, rfl, ?_⟩))⟩
      by_cases hlast : s.settle - 1 = 0
      · exact .inr (phase_exec_or_done (i := i) hb hlast hi)
      · exact .inl (phase_wait hb hlast)
    have htick := tick_command hr hb hd hi
    rcases hle.lt_or_eq with hlt | heq
    · obtain ⟨u, hu⟩ : ∃ u, (microProgram i)[s.upc.toNat]? = some u := ⟨_, List.getElem?_eq_getElem hlt⟩
      rw [microStep_of_getElem? hu] at htick
      refine ⟨_, htick, .inr (.inl ⟨phase_exec hb hd hi hlt, hb, hd, ⟨i, u, hi, hu, rfl⟩, ?_⟩)⟩
      split_ifs with hT
      · exact phase_exec_or_done (i := i) (by simp [hb]) hT (by simp [hi])
      · exact phase_wait (by simp [hb]) hT
    · rw [microStep_of_len_le heq.ge] at htick
      exact ⟨_, htick, .inr (.inr (.inr ⟨phase_done hb hd hi heq.ge, hb, hd, ⟨i, hi, heq⟩, rfl, phase_idle rfl⟩))⟩
  · rw [hostWrite_cmdWrite i ⟨hr, busy_of_phase_idle hidle⟩]
    exact phase_exec (i := i) rfl rfl (decode_encode i) (len_pos i)
  · rcases setRst_cases true s with ⟨-, -, h⟩ | ⟨hheld, -⟩
    · rw [h]
      exact phase_idle rfl
    · simp [hr] at hheld

/-- Settles O26: each host action leaves a frame, and `BUSY` is in it. -/
theorem noCancellation : Obligations.NoCancellation := by
  refine ⟨fun _ off v hb => hostWrite_busy_frame off v hb, fun s t hb h => ?_, fun _ _ hb h ht => step_clears_busy h hb ht⟩
  refine ⟨fun _ _ _ ha => step_read_frame ha h, fun _ _ _ _ ha => step_write_busy_frame hb h ha,
    fun _ _ ha => step_command_busy_frame hb h ha, fun rest ha => ?_⟩
  have htick : tick s = .next t := (step_poll_busy s rest ha hb).symm.trans h
  exact ⟨htick, tick_cmdReg_tSettle htick⟩

end Sys2Proof.Machine

/-! PROOF. The statements about the framing commands (spec/42_framing.md): the whole effect of `START` and `STOP`, and which
conditions a sequence of commands makes. -/

namespace Sys2Proof

/-! ### The words of a command -/

/-- A command's pattern under the mask selects the words of the commands with its opcode (R72). -/
theorem and_opcodeMask_eq_iff (w : CmdWord) (i : Instr) :
    w &&& 0xF00#12 = i.op ++ 0#8 ↔ ∃ j, decode w = .command j ∧ j.op = i.op := by
  rw [and_opcodeMask, BitVec.append_left_inj, opcodeField_eq_op_iff]

/-- Opcode 0x1 is `START` alone (R72). -/
theorem op_eq_start_iff (i : Instr) : i.op = 0x1#4 ↔ ∃ d, i = .start d := by
  cases i <;> simp [Instr.op]

/-- Opcode 0x2 is `STOP` alone (R72). -/
theorem op_eq_stop_iff (i : Instr) : i.op = 0x2#4 ↔ ∃ d, i = .stop d := by
  cases i <;> simp [Instr.op]

/-- `START`'s row of the opcode map (R72, R120). -/
theorem and_opcodeMask_eq_start_iff (w : CmdWord) : w &&& 0xF00#12 = 0x100#12 ↔ ∃ d, decode w = .command (.start d) := by
  refine (and_opcodeMask_eq_iff w (.start 0)).trans ⟨fun ⟨j, hj, hop⟩ => ?_, fun ⟨d, hd⟩ => ⟨_, hd, rfl⟩⟩
  obtain ⟨d, rfl⟩ := (op_eq_start_iff j).mp hop
  exact ⟨d, hj⟩

/-- `STOP`'s row of the opcode map (R72, R121). -/
theorem and_opcodeMask_eq_stop_iff (w : CmdWord) : w &&& 0xF00#12 = 0x200#12 ↔ ∃ d, decode w = .command (.stop d) := by
  refine (and_opcodeMask_eq_iff w (.stop 0)).trans ⟨fun ⟨j, hj, hop⟩ => ?_, fun ⟨d, hd⟩ => ⟨_, hd, rfl⟩⟩
  obtain ⟨d, rfl⟩ := (op_eq_stop_iff j).mp hop
  exact ⟨d, hj⟩

end Sys2Proof

namespace Sys2Proof.Machine

/-! ### A command as one transition -/

/-- A command issued to a busy block is the overrun event (R102). -/
theorem exec_busy (i : Instr) {s : State} (hr : s.rst = false) (hb : s.busy = true) :
    exec i s = .next { s with ovr := true } := by
  rcases exec_cases i s with ⟨hr', -⟩ | ⟨-, -, he⟩ | ⟨-, hb', -⟩
  · cases hr.symm.trans hr'
  · exact he
  · cases hb.symm.trans hb'

/-- But for `RECVB`, acceptance and completion write `CMDREG`, `BUSY` and the counters alone (R102, R105). -/
theorem exec_ready_of_not_recvb (i : Instr) {s : State} (h : s.Ready) (hi : ∀ x, i ≠ .recvb x) :
    exec i s = .next { performAll (microProgram i) { s with cmdReg := encode i, busy := true, upc := 0, settle := 0 } with
      busy := false, upc := 0 } := by
  have hop : opcodeField (encode i) ≠ 0x5#4 := opcodeField_encode i ▸ op_ne_of_not_recvb i hi
  have hbegin : beginCommand (encode i) s = { s with cmdReg := encode i, busy := true, upc := 0, settle := 0 } := by
    simp [beginCommand, hop]
  rw [exec_ready i s h, hbegin]
  simp [complete, hop]

/-- One command that completes, then the rest. -/
theorem execAll_cons {i : Instr} {s t : State} (h : exec i s = .next t) (is : List Instr) :
    execAll (i :: is) s = execAll is t := by
  simp [execAll, h]

/-! ### START and STOP -/

/-- The micro-operations of `START`, from every state of the lines: the third is always the start condition (R120). -/
theorem performAll_startProgram (s : State) : performAll startProgram s = { s with
    sclOut := false, sdaOut := false, session := true
    hist := s.hist ++ [sdEvent s.sclOut s.sdaOut true, .sc true, .start, .sc false] } := by
  simp [startProgram, perform, setData, setClock, sdEvent, sessionAfter]

/-- The micro-operations of `STOP`, from every state of the lines: the third is always the stop condition (R121). -/
theorem performAll_stopProgram (s : State) : performAll stopProgram s = { s with
    sclOut := true, sdaOut := true, session := false
    hist := s.hist ++ [sdEvent s.sclOut s.sdaOut false, .sc true, .stop] } := by
  simp [stopProgram, perform, setData, setClock, sdEvent, sessionAfter]

theorem exec_start (d : Byte) {s : State} (h : s.Ready) : exec (.start d) s = .next { s with
    cmdReg := encode (.start d), sclOut := false, sdaOut := false, session := true, busy := false, upc := 0, settle := 0
    hist := s.hist ++ [sdEvent s.sclOut s.sdaOut true, .sc true, .start, .sc false] } := by
  rw [exec_ready_of_not_recvb _ h (by simp), microProgram, performAll_startProgram]

theorem exec_stop (d : Byte) {s : State} (h : s.Ready) : exec (.stop d) s = .next { s with
    cmdReg := encode (.stop d), sclOut := true, sdaOut := true, session := false, busy := false, upc := 0, settle := 0
    hist := s.hist ++ [sdEvent s.sclOut s.sdaOut false, .sc true, .stop] } := by
  rw [exec_ready_of_not_recvb _ h (by simp), microProgram, performAll_stopProgram]

/-- What releasing the data line records (R92). -/
theorem sdEvent_release (scl sda : Level) : sdEvent scl sda true = if scl && !sda then .stop else .sd true := by
  simp [sdEvent]

/-- What driving the data line low records (R92). -/
theorem sdEvent_driveLow (scl sda : Level) : sdEvent scl sda false = if scl && sda then .start else .sd false := by
  simp [sdEvent]

/-! ### Micro-programs that make no condition -/

/-- In a series of micro-operations that finds the clock output at `scl`, each `SD` finds it low (R139). -/
def dataMovesClockLow : Level → List Uop → Bool
  | _, [] => true
  | _, .sc l :: us => dataMovesClockLow l us
  | scl, .sd _ :: us => !scl && dataMovesClockLow scl us
  | scl, .rd _ :: us => dataMovesClockLow scl us

/-- A byte command accepted with the clock low moves the data line only while it is low (R130, R139). -/
theorem dataMovesClockLow_microProgram (i : Instr) (hi : isByteCommand i = true) :
    dataMovesClockLow false (microProgram i) = true := by
  cases i with
  | start d => cases hi
  | stop d => cases hi
  | _ => rfl

/-- The first micro-operation of such a series makes no condition, and what is left of the series is one. -/
theorem dataMovesClockLow_cons {u : Uop} {us : List Uop} {s : State} (h : dataMovesClockLow s.sclOut (u :: us) = true) :
    uopEvent u s ≠ .start ∧ uopEvent u s ≠ .stop ∧ dataMovesClockLow (perform u s).sclOut us = true := by
  cases u with
  | sc l => exact ⟨nofun, nofun, h⟩
  | sd l =>
    obtain ⟨hc, hus⟩ := Bool.and_eq_true_iff.mp h
    have hevent : uopEvent (.sd l) s = .sd l := by
      rw [uopEvent, (Bool.not_eq_true' _).mp hc, sdEvent_clockLow]
    exact ⟨by simp [hevent], by simp [hevent], hus⟩
  | rd d =>
    refine ⟨nofun, nofun, ?_⟩
    cases d <;> exact h

/-- A series that moves the data line only while the clock is low records no condition (R95). -/
theorem performAll_hist_of_dataMovesClockLow (us : List Uop) (s : State) (h : dataMovesClockLow s.sclOut us = true) :
    ∃ es, (performAll us s).hist = s.hist ++ es ∧ .start ∉ es ∧ .stop ∉ es := by
  induction us generalizing s with
  | nil => exact ⟨[], by simp⟩
  | cons u us ih =>
    obtain ⟨hstart, hstop, hus⟩ := dataMovesClockLow_cons h
    obtain ⟨es, hes, hes_start, hes_stop⟩ := ih (perform u s) hus
    refine ⟨uopEvent u s :: es, ?_, ?_, ?_⟩
    · rw [performAll_cons, hes, perform_hist, List.append_assoc, List.singleton_append]
    · exact List.not_mem_cons_of_ne_of_not_mem hstart.symm hes_start
    · exact List.not_mem_cons_of_ne_of_not_mem hstop.symm hes_stop

/-- A byte command leaves the clock low (R138). -/
theorem performAll_microProgram_sclOut (i : Instr) (s : State) (hi : isByteCommand i = true) :
    (performAll (microProgram i) s).sclOut = false := by
  refine (congrArg WireView.scl (performAll_wires (microProgram i) s)).trans ?_
  cases i with
  | start d => cases hi
  | stop d => cases hi
  | _ => rfl

/-! ### Commands inside a session -/

/-- Between the commands of a session: nothing runs and the clock is low (R124). -/
def State.InSession (s : State) : Prop := s.Ready ∧ s.session = true ∧ s.sclOut = false

/-- From `s` to `t` the history gained `n` start conditions and no stop condition. -/
def State.GainsStarts (s t : State) (n : Nat) : Prop :=
  ∃ es, t.hist = s.hist ++ es ∧ es.count .start = n ∧ es.count .stop = 0

theorem State.GainsStarts.of_start {s t : State} (h : t.hist = s.hist ++ [.sd true, .sc true, .start, .sc false]) :
    s.GainsStarts t 1 :=
  ⟨_, h, rfl, rfl⟩

theorem State.GainsStarts.trans {s t u : State} {m n : Nat} (hst : s.GainsStarts t m) (htu : t.GainsStarts u n) :
    s.GainsStarts u (m + n) := by
  obtain ⟨es, hes, hstart, hstop⟩ := hst
  obtain ⟨fs, hfs, hstart', hstop'⟩ := htu
  refine ⟨es ++ fs, ?_, ?_, ?_⟩
  · rw [hfs, hes, List.append_assoc]
  · rw [List.count_append, hstart, hstart']
  · rw [List.count_append, hstop, hstop']

/-- `START` opens a session; unless it finds the clock high and the data low, its start condition is the only one (R120). -/
theorem exec_start_opens (d : Byte) {s : State} (h : s.Ready) (hsd : sdEvent s.sclOut s.sdaOut true = .sd true) :
    ∃ t, exec (.start d) s = .next t ∧ t.InSession ∧ t.hist = s.hist ++ [.sd true, .sc true, .start, .sc false] := by
  refine ⟨_, exec_start d h, ⟨⟨h.1, rfl⟩, rfl, rfl⟩, ?_⟩
  rw [hsd]

/-- A byte command inside a session makes no condition (R124). -/
theorem exec_byteCommand_inSession {i : Instr} (hi : isByteCommand i = true) {s : State} (h : s.InSession) :
    ∃ t, exec i s = .next t ∧ t.InSession ∧ s.GainsStarts t 0 := by
  obtain ⟨hready, hopen, hlow⟩ := h
  have hsession := (performAll_microProgram_session i (beginCommand (encode i) s) hi hlow).trans hopen
  have hclock := performAll_microProgram_sclOut i (beginCommand (encode i) s) hi
  obtain ⟨es, hes, hstart, hstop⟩ := performAll_hist_of_dataMovesClockLow (microProgram i) (beginCommand (encode i) s)
    (hlow ▸ dataMovesClockLow_microProgram i hi)
  refine ⟨_, exec_ready i s hready, ⟨⟨?_, rfl⟩, hsession, hclock⟩, es, hes, ?_, ?_⟩
  · simpa using hready.1
  · exact List.count_eq_zero.mpr hstart
  · exact List.count_eq_zero.mpr hstop

/-- The number of `START`s in a sequence of commands. -/
def startCount (cs : List Instr) : Nat := (cs.filter fun i => i.op == 0x1#4).length

/-- What may stand inside a session makes a start condition if it is a `START`, and nothing else (R122, R124). -/
theorem exec_inner {i : Instr} (hi : isInner i = true) {s : State} (h : s.InSession) :
    ∃ t, exec i s = .next t ∧ t.InSession ∧ s.GainsStarts t (startCount [i]) := by
  cases i with
  | start d =>
    obtain ⟨hready, -, hlow⟩ := h
    obtain ⟨t, ht, hts, hhist⟩ := exec_start_opens d hready (by rw [hlow, sdEvent_clockLow])
    exact ⟨t, ht, hts, .of_start hhist⟩
  | stop d => cases hi
  | _ => exact exec_byteCommand_inSession rfl h

/-- A series of such commands, one after the other. -/
theorem execAll_inner {cs : List Instr} (hcs : ∀ i ∈ cs, isInner i = true) {s : State} (h : s.InSession) :
    ∃ t, execAll cs s = .next t ∧ t.InSession ∧ s.GainsStarts t (startCount cs) := by
  induction cs generalizing s with
  | nil => exact ⟨s, rfl, h, [], by simp [startCount]⟩
  | cons i cs ih =>
    obtain ⟨hi, hrest⟩ := List.forall_mem_cons.mp hcs
    obtain ⟨u, hu, hus, hgain⟩ := exec_inner hi h
    obtain ⟨t, ht, hts, hgain'⟩ := ih hrest hus
    refine ⟨t, (execAll_cons hu cs).trans ht, hts, ?_⟩
    have hcount : startCount (i :: cs) = startCount [i] + startCount cs := by
      simp only [startCount, ← List.length_append, ← List.filter_append, List.singleton_append]
    exact hcount ▸ hgain.trans hgain'

/-- `STOP` inside a session closes it with one stop condition and leaves the lines idle (R121). -/
theorem exec_stop_closes (d : Byte) {s : State} (h : s.InSession) :
    ∃ t, exec (.stop d) s = .next t ∧ t.Idle ∧ t.hist = s.hist ++ [.sd false, .sc true, .stop] := by
  obtain ⟨hready, -, hlow⟩ := h
  refine ⟨_, exec_stop d hready, ⟨⟨hready.1, rfl⟩, rfl, rfl, rfl⟩, ?_⟩
  rw [hlow, sdEvent_clockLow]

/-- `LINES[1:0]` reads 0b11 where the lines are released (R50, R123). -/
theorem linesWord_outputs_of_released (sda : Level) {s : State} (hc : s.sclOut = true) (hd : s.sdaOut = true) :
    (linesWord sda s).extractLsb' 0 2 = 0b11#2 := by
  rw [linesWord, hc, hd]
  revert sda
  decide

/-! ### The obligations -/

/-- Settles O36: the event of the first `SD(1)` depends on the lines, the third micro-operation is always the start condition. -/
theorem startCommand : Obligations.StartCommand := by
  refine fun d s => ⟨fun h => ?_, exec_busy (.start d), and_opcodeMask_eq_start_iff, encode_start_zero, rfl, rfl⟩
  rw [exec_start d h, sdEvent_release]

/-- Settles O37: the event of the first `SD(0)` depends on the lines, the third micro-operation is always the stop condition. -/
theorem stopCommand : Obligations.StopCommand := by
  refine fun d s => ⟨fun h => ?_, exec_busy (.stop d), and_opcodeMask_eq_stop_iff, encode_stop_zero, rfl, rfl⟩
  rw [exec_stop d h, sdEvent_driveLow]

/-- Settles O47: `START` finds the lines released, and `STOP` the session it opened. -/
theorem startThenStop : Obligations.StartThenStop := by
  rintro d d' s ⟨hready, -, hc, hd⟩
  obtain ⟨u, hu, hus, hhist⟩ := exec_start_opens d hready (by rw [hc, hd, sdEvent_same])
  obtain ⟨t, ht, hidle, hhist'⟩ := exec_stop_closes d' hus
  refine ⟨t, ?_, hidle, ?_, fun sda => ?_⟩
  · rw [execAll_cons hu, execAll_cons ht, execAll]
  · rw [hhist', hhist, List.append_assoc]
    rfl
  · obtain ⟨-, -, hct, hdt⟩ := hidle
    exact linesWord_outputs_of_released sda hct hdt

/-- Settles O48: `START` opens the session, no inner command closes it, and `STOP` does. -/
theorem transactionMakesOnlyItsConditions : Obligations.TransactionMakesOnlyItsConditions := by
  rintro d d' cs s ⟨hready, -, hc, hd⟩ hcs
  obtain ⟨u, hu, hus, hstart⟩ := exec_start_opens d hready (by rw [hc, hd, sdEvent_same])
  obtain ⟨m, hm, hms, hgain⟩ := execAll_inner hcs hus
  obtain ⟨t, ht, hidle, hhist⟩ := exec_stop_closes d' hms
  obtain ⟨es, hes, hstarts, hstops⟩ := (State.GainsStarts.of_start hstart).trans hgain
  have hinner : execAll (.start d :: cs) s = .next m := (execAll_cons hu cs).trans hm
  obtain ⟨-, hopen, hlow⟩ := hms
  refine ⟨m, t, es ++ [.sd false, .sc true, .stop], hinner, hopen, hlow, ?_, hidle, ?_, ?_, ?_, ?_⟩
  · rw [execAll_append _ _ s m hinner, execAll_cons ht, execAll]
  · rw [hhist, hes, List.append_assoc]
  · simp
  · simp [List.count_append, hstops]
  · simp [List.count_append, hstarts, startCount]

end Sys2Proof.Machine

/-! PROOF. The statements about the byte transfer commands (spec/43_byte_transfer.md): the whole effect of each of the four,
the lines every command leaves, the clock-low discipline, and the loopback property. -/

namespace Sys2Proof

/-! ### The words of the byte commands -/

/-- Where an opcode belongs to the commands of one constructor alone, its pattern under the mask selects their words (R72). -/
theorem and_opcodeMask_eq_constructor_iff {α : Type} {make : α → Instr} {i : Instr}
    (hop : ∀ j : Instr, j.op = i.op ↔ ∃ a, make a = j) (w : CmdWord) :
    w &&& 0xF00#12 = i.op ++ 0#8 ↔ ∃ a, decode w = .command (make a) := by
  rw [and_opcodeMask_eq_iff]
  constructor
  · rintro ⟨j, hj, hji⟩
    obtain ⟨a, rfl⟩ := (hop j).mp hji
    exact ⟨a, hj⟩
  · rintro ⟨a, ha⟩
    exact ⟨make a, ha, (hop _).mpr ⟨a, rfl⟩⟩

/-- `SENDB`'s row of the opcode map (R72, R132). -/
theorem and_opcodeMask_eq_sendb_iff (w : CmdWord) : w &&& 0xF00#12 = 0x300#12 ↔ ∃ b, decode w = .command (.sendb b) :=
  and_opcodeMask_eq_constructor_iff (i := .sendb 0) (fun j => by cases j <;> simp [Instr.op]) w

/-- `SENDBA`'s row of the opcode map (R72, R133). -/
theorem and_opcodeMask_eq_sendba_iff (w : CmdWord) : w &&& 0xF00#12 = 0x400#12 ↔ ∃ b, decode w = .command (.sendba b) :=
  and_opcodeMask_eq_constructor_iff (i := .sendba 0) (fun j => by cases j <;> simp [Instr.op]) w

/-- `RECVB`'s row of the opcode map (R72, R134). -/
theorem and_opcodeMask_eq_recvb_iff (w : CmdWord) : w &&& 0xF00#12 = 0x500#12 ↔ ∃ d, decode w = .command (.recvb d) :=
  and_opcodeMask_eq_constructor_iff (i := .recvb 0) (fun j => by cases j <;> simp [Instr.op]) w

/-- `SENDACK`'s row of the opcode map (R72, R135). -/
theorem and_opcodeMask_eq_sendack_iff (w : CmdWord) :
    w &&& 0xF00#12 = 0x600#12 ↔ ∃ a hi, decode w = .command (.sendack a hi) := by
  rw [← Prod.exists' (p := fun a hi => decode w = .command (.sendack a hi))]
  exact and_opcodeMask_eq_constructor_iff (make := fun x : Level × BitVec 7 => .sendack x.1 x.2) (i := .sendack false 0)
    (fun j => by cases j <;> simp [Instr.op]) w

end Sys2Proof

namespace Sys2Proof.Machine

/-! ### The sent bits and the session -/

/-- `SESSION` after `SD(l)`, by the condition it makes: a start, a stop or none, each with the clock high alone (R92, R205). -/
theorem sessionAfter_sdEvent (scl sda l : Level) (session : Bool) : sessionAfter (sdEvent scl sda l) session =
    if scl = true then
      (if sda = true ∧ l = false then true else if sda = false ∧ l = true then false else session)
    else session := by
  rcases sdEvent_cases scl sda l with ⟨rfl, rfl, rfl, he⟩ | ⟨rfl, rfl, rfl, he⟩ | ⟨rfl | rfl, he⟩ <;> rw [he]
  · rfl
  · rfl
  · rfl
  · cases scl <;> cases sda <;> rfl

/-- `SESSION` after the data line is released (R92). -/
theorem sessionAfter_sdEvent_release (scl sda : Level) (session : Bool) :
    sessionAfter (sdEvent scl sda true) session = if scl = true ∧ sda = false then false else session := by
  rw [sessionAfter_sdEvent]
  cases scl <;> simp

/-! ### The bits of a byte -/

/-- A byte's number is the sum of its bits, each with its weight: bit after bit is what halving leaves over. -/
theorem toNat_eq_sum_byteBit (b : Byte) : b.toNat =
    (byteBit b 7).toNat * 128 + (byteBit b 6).toNat * 64 + (byteBit b 5).toNat * 32 + (byteBit b 4).toNat * 16 +
      (byteBit b 3).toNat * 8 + (byteBit b 2).toNat * 4 + (byteBit b 1).toNat * 2 + (byteBit b 0).toNat := by
  have hb := b.isLt
  simp only [byteBit, BitVec.getLsbD, Fin.coe_ofNat_eq_mod, Nat.reduceMod, Nat.testBit_succ, Nat.toNat_testBit, pow_zero,
    Nat.div_one]
  omega

/-- Eight samples weigh by the order they were taken in (R134). -/
theorem toNat_byteOfSamples (v7 v6 v5 v4 v3 v2 v1 v0 : Level) :
    (byteOfSamples [v7, v6, v5, v4, v3, v2, v1, v0]).toNat = v7.toNat * 128 + v6.toNat * 64 + v5.toNat * 32 +
      v4.toNat * 16 + v3.toNat * 8 + v2.toNat * 4 + v1.toNat * 2 + v0.toNat := by
  have hbits := wireBits_byteOfSamples v7 v6 v5 v4 v3 v2 v1 v0
  simp only [wireBits, bitOrder, List.map_cons, List.map_nil, List.cons.injEq, and_true] at hbits
  obtain ⟨h7, h6, h5, h4, h3, h2, h1, h0⟩ := hbits
  rw [toNat_eq_sum_byteBit, h7, h6, h5, h4, h3, h2, h1, h0]

/-- The bits of a byte, put together as they travel, are the byte (R54, R137). -/
theorem byteOfSamples_wireBits (b : Byte) : byteOfSamples (wireBits b) = b :=
  BitVec.eq_of_toNat_eq ((toNat_byteOfSamples _ _ _ _ _ _ _ _).trans (toNat_eq_sum_byteBit b).symm)

/-! ### The byte commands as transitions -/

theorem exec_sendb (b : Byte) {s : State} (h : s.Ready) : exec (.sendb b) s = .next { s with
    cmdReg := encode (.sendb b), sclOut := false, sdaOut := b.getLsbD 0, busy := false, upc := 0, settle := 0
    session := sessionAfter (sdEvent s.sclOut s.sdaOut (b.getLsbD 7)) s.session
    hist := s.hist ++ (sdEvent s.sclOut s.sdaOut (b.getLsbD 7) :: [.sc true, .sc false]) ++
      ([6, 5, 4, 3, 2, 1, 0].flatMap fun j => sentBitEvents (b.getLsbD j)) ++ [.sc true, .sc false] } := by
  rw [exec_ready_of_not_recvb _ h (by simp), microProgram, sendbProgram, performAll_append, performAll_shiftOut]
  simp [clockPulse, perform, setClock]

theorem exec_sendba (b : Byte) {s : State} (h : s.Ready) {v : Level} {inp : SdaInput} (hdraw : s.sdaIn.draw = (v, inp)) :
    exec (.sendba b) s = .next { s with
      cmdReg := encode (.sendba b), sclOut := false, sdaOut := true, busy := false, upc := 0, settle := 0
      ackIn := v, nackF := s.nackF || v, sdaIn := inp
      session := sessionAfter (sdEvent s.sclOut s.sdaOut (b.getLsbD 7)) s.session
      hist := s.hist ++ (sdEvent s.sclOut s.sdaOut (b.getLsbD 7) :: [.sc true, .sc false]) ++
        ([6, 5, 4, 3, 2, 1, 0].flatMap fun j => sentBitEvents (b.getLsbD j)) ++
        [.sd true, .sc true, .rd v, .sc false] } := by
  rw [exec_ready_of_not_recvb _ h (by simp), microProgram, sendbaProgram, performAll_append, performAll_shiftOut]
  simp [perform, setData, setClock, readData, storeSample, recordAck, hdraw, sessionAfter]

theorem exec_sendack (a : Level) (hi : BitVec 7) {s : State} (h : s.Ready) : exec (.sendack a hi) s = .next { s with
    cmdReg := encode (.sendack a hi), sclOut := false, sdaOut := a, busy := false, upc := 0, settle := 0
    session := sessionAfter (sdEvent s.sclOut s.sdaOut a) s.session
    hist := s.hist ++ [sdEvent s.sclOut s.sdaOut a, .sc true, .sc false] } := by
  rw [exec_ready_of_not_recvb _ h (by simp), microProgram, sendackProgram, performAll_sendBit]

/-- Received bits begin with `SC(1)`, so that it does not matter where the clock was (R134). -/
theorem performAll_receiveBits_withClockLow (i : Fin 8) (is : List (Fin 8)) (s : State) :
    performAll ((i :: is).flatMap receiveBit) s = performAll ((i :: is).flatMap receiveBit) { s with sclOut := false } :=
  rfl

/-- The micro-operations of `RECVB`, from every state of the lines: the data line is released, then eight bits are received. -/
theorem performAll_recvbProgram (s : State) {vs : List Level} {inp : SdaInput} (hdraw : s.sdaIn.drawMany 8 = (vs, inp)) :
    performAll recvbProgram s = { s with
      sclOut := false, sdaOut := true, session := sessionAfter (sdEvent s.sclOut s.sdaOut true) s.session
      sdaIn := inp, rxShift := (bitOrder.zip vs).foldl (fun r iv => putBit r iv.1 iv.2) s.rxShift
      hist := s.hist ++ (sdEvent s.sclOut s.sdaOut true :: vs.flatMap receivedBitEvents) } := by
  rw [recvbProgram, performAll_cons, bitOrder, performAll_receiveBits_withClockLow, performAll_receiveBits _ _ rfl]
  simp [perform, setData, hdraw]

/-- `RECVB` empties `RXSHIFT` at acceptance and delivers it at completion (R102, R105). -/
theorem exec_recvb (d : Byte) {s : State} (h : s.Ready) {vs : List Level} {inp : SdaInput}
    (hdraw : s.sdaIn.drawMany 8 = (vs, inp)) : exec (.recvb d) s = .next { s with
      cmdReg := encode (.recvb d), sclOut := false, sdaOut := true, busy := false, upc := 0, settle := 0
      rxShift := byteOfSamples vs, rxData := byteOfSamples vs, sdaIn := inp
      session := sessionAfter (sdEvent s.sclOut s.sdaOut true) s.session
      hist := s.hist ++ (sdEvent s.sclOut s.sdaOut true :: vs.flatMap receivedBitEvents) } := by
  rw [exec_ready _ s h, microProgram, performAll_recvbProgram _ (by simpa using hdraw)]
  simp [complete, beginCommand, opcodeField_encode, Instr.op, byteOfSamples]

/-! ### The clock-low discipline -/

/-- The discipline of R139, in a series of micro-operations that finds the clock output at `scl`: each `SD` finds it low and
each `RD()` finds it high. -/
def clockLowDisciplined : Level → List Uop → Bool
  | _, [] => true
  | _, .sc l :: us => clockLowDisciplined l us
  | scl, .sd _ :: us => !scl && clockLowDisciplined scl us
  | scl, .rd _ :: us => scl && clockLowDisciplined scl us

/-- The byte commands keep the discipline (R130, R134, R139). -/
theorem clockLowDisciplined_microProgram {i : Instr} (hi : isByteCommand i = true) :
    clockLowDisciplined false (microProgram i) = true := by
  cases i with
  | start d => cases hi
  | stop d => cases hi
  | _ => rfl

/-- The first micro-operation of a disciplined series leaves `SESSION` alone, and what is left of the series is disciplined. -/
theorem clockLowDisciplined_cons {u : Uop} {us : List Uop} {s : State}
    (h : clockLowDisciplined s.sclOut (u :: us) = true) :
    (perform u s).session = s.session ∧ clockLowDisciplined (perform u s).sclOut us = true := by
  cases u with
  | sc l => exact ⟨rfl, h⟩
  | sd l =>
    obtain ⟨hc, hus⟩ := Bool.and_eq_true_iff.mp h
    refine ⟨?_, hus⟩
    rw [perform, setData_session, (Bool.not_eq_true' _).mp hc, sdEvent_clockLow, sessionAfter]
  | rd d =>
    obtain ⟨-, hus⟩ := Bool.and_eq_true_iff.mp h
    cases d <;> exact ⟨rfl, hus⟩

/-- `clockLowDisciplined` says of the machine, before each micro-operation of the series, what it says of the list. -/
theorem performAll_take_of_clockLowDisciplined (us : List Uop) (s : State) (h : clockLowDisciplined s.sclOut us = true)
    (k : Nat) (hk : k < us.length) :
    (∀ l, us[k] = .sd l → (performAll (us.take k) s).sclOut = false) ∧
    (∀ d, us[k] = .rd d → (performAll (us.take k) s).sclOut = true) ∧
    (performAll (us.take k) s).session = s.session := by
  induction us generalizing s k with
  | nil => simp at hk
  | cons u us ih =>
    cases k with
    | zero =>
      refine ⟨fun l hl => ?_, fun d hd => ?_, rfl⟩
      · obtain rfl : u = .sd l := hl
        exact (Bool.not_eq_true' _).mp (Bool.and_eq_true_iff.mp h).1
      · obtain rfl : u = .rd d := hd
        exact (Bool.and_eq_true_iff.mp h).1
    | succ k =>
      obtain ⟨hsession, hus⟩ := clockLowDisciplined_cons h
      obtain ⟨hsd, hrd, hkept⟩ := ih (perform u s) hus k (Nat.lt_of_succ_lt_succ hk)
      exact ⟨hsd, hrd, hkept.trans hsession⟩

/-! ### The data levels at the clock rises -/

/-- The level of the data output at each `SC(1)` of a series of micro-operations that finds it at `sda` (R137). -/
def levelsAtClockRises : Level → List Uop → List Level
  | _, [] => []
  | sda, .sc l :: us => (if l = true then [sda] else []) ++ levelsAtClockRises sda us
  | _, .sd l :: us => levelsAtClockRises l us
  | sda, .rd _ :: us => levelsAtClockRises sda us

/-- Whether an event of a micro-operation is `EvSC(1)` is said by the micro-operation alone. -/
theorem uopEvent_eq_clockRise_iff (u : Uop) (s : State) : uopEvent u s = .sc true ↔ u = .sc true := by
  cases u with
  | sc l => simp [uopEvent]
  | sd l =>
    rcases sdEvent_cases s.sclOut s.sdaOut l with ⟨-, -, -, he⟩ | ⟨-, -, -, he⟩ | ⟨-, he⟩ <;> simp [uopEvent, he]
  | rd d => simp [uopEvent]

/-- What is read off the events a series appends is read off the series (R137). -/
theorem dataAtClockHigh_performAll (us : List Uop) (s : State) :
    ∃ es, (performAll us s).hist = s.hist ++ es ∧ dataAtClockHigh s.wires es = levelsAtClockRises s.sdaOut us := by
  induction us generalizing s with
  | nil => exact ⟨[], by simp [dataAtClockHigh, levelsAtClockRises]⟩
  | cons u us ih =>
    obtain ⟨es, hes, hlevels⟩ := ih (perform u s)
    refine ⟨uopEvent u s :: es, by simp [hes, perform_hist], ?_⟩
    rw [dataAtClockHigh, ← performed_eq_after_uopEvent, ← perform_wires, hlevels]
    simp only [uopEvent_eq_clockRise_iff]
    cases u with
    | sc l => simp [levelsAtClockRises, State.wires, perform]
    | sd l => simp [levelsAtClockRises, perform]
    | rd d => cases d <;> simp [levelsAtClockRises, perform, readData, storeSample]

/-- Both sends put the bits of the byte on the line in order, from every state of it (R130, R137). -/
theorem levelsAtClockRises_send (b : Byte) {i : Instr} (hi : i = .sendb b ∨ i = .sendba b) (sda : Level) :
    (levelsAtClockRises sda (microProgram i)).take 8 = wireBits b := by
  rcases hi with rfl | rfl <;> rfl

/-- A `RECVB` that is presented the bits of a byte in order receives the byte (R137). -/
theorem exec_recvb_of_wireBits (b d : Byte) {s : State} (h : s.Ready) {rest : List Level}
    (hup : s.sdaIn.upcoming = wireBits b ++ rest) : ∃ t, exec (.recvb d) s = .next t ∧ t.rxData = b := by
  have hdraw : s.sdaIn.drawMany 8 = (wireBits b, ⟨rest, s.sdaIn.drawn⟩) := by
    rw [← SdaInput.drawMany_listed (wireBits b) rest s.sdaIn.drawn, ← hup]
    rfl
  exact ⟨_, exec_recvb d h hdraw, byteOfSamples_wireBits b⟩

/-! ### The obligations -/

/-- Settles O38: the first `SD` alone can find the clock high, and with it make a condition. -/
theorem sendbCommand : Obligations.SendbCommand := by
  refine fun b s => ⟨fun h => ?_, exec_busy (.sendb b), and_opcodeMask_eq_sendb_iff, encode_sendb b, rfl, rfl⟩
  rw [exec_sendb b h, sessionAfter_sdEvent]

/-- Settles O39: as for `SENDB`, with one draw taken in the ninth pulse. -/
theorem sendbaCommand : Obligations.SendbaCommand := by
  refine fun b s v inp hdraw =>
    ⟨fun h => ?_, exec_busy (.sendba b), and_opcodeMask_eq_sendba_iff, encode_sendba b, rfl, rfl⟩
  rw [exec_sendba b h hdraw, sessionAfter_sdEvent]

/-- Settles O40: the byte is the eight samples put together; only completion writes `RXDATA`. -/
theorem recvbCommand : Obligations.RecvbCommand := by
  refine fun d s v7 v6 v5 v4 v3 v2 v1 v0 inp hdraw => ⟨fun h => ⟨_, toNat_byteOfSamples v7 v6 v5 v4 v3 v2 v1 v0, ?_⟩,
    fun h => ?_, exec_busy (.recvb d), and_opcodeMask_eq_recvb_iff, encode_recvb_zero, rfl, rfl⟩
  · rw [exec_recvb d h hdraw, sessionAfter_sdEvent_release]
  · rw [hostWrite_cmdWrite (.recvb d) h]
    refine ⟨?_, fun k => ?_⟩
    · rw [beginCommand_rxShift, opcodeField_encode, Instr.op, if_pos rfl]
    · rw [performAll_rxData, beginCommand_rxData]

/-- Settles O43: the lines after a command are its micro-program's effect on the lines before it. -/
theorem linesAfterEachCommand : Obligations.LinesAfterEachCommand := by
  refine fun i s h => ⟨_, exec_ready i s h, ?_⟩
  have hlines := performAll_wires (microProgram i) (beginCommand (encode i) s)
  refine (congrArg (fun v : WireView => (v.scl, v.sda)) hlines).trans ?_
  cases i <;> rfl

/-- Settles O44: the micro-programs of the byte commands are disciplined, and sample with the data line released. -/
theorem clockLowDiscipline : Obligations.ClockLowDiscipline := by
  intro i s hi hc
  refine ⟨fun k hk => ?_, performAll_microProgram_session i (beginCommand (encode i) s) hi hc,
    performAll_microProgram_sclOut i (beginCommand (encode i) s) hi⟩
  have hdisciplined : clockLowDisciplined (beginCommand (encode i) s).sclOut (microProgram i) = true := by
    rw [beginCommand_sclOut, hc, clockLowDisciplined_microProgram hi]
  obtain ⟨hsd, hrd, hsession⟩ := performAll_take_of_clockLowDisciplined _ _ hdisciplined k hk
  have hreleased := sdaOut_at_sample (microProgram i) (beginCommand (encode i) s) (samplesReleased_microProgram i _) k hk
  exact ⟨hsd, fun d hd => ⟨hrd d hd, hreleased d hd⟩, hsession⟩

/-- Settles O49: the levels presented to `RECVB` are the bits of the byte, so it puts the byte together again. -/
theorem loopbackReproducesTheByte : Obligations.LoopbackReproducesTheByte := by
  intro b i s h hi
  obtain ⟨es, hes, hlevels⟩ := dataAtClockHigh_performAll (microProgram i) (beginCommand (encode i) s)
  have hbits : (dataAtClockHigh s.wires es).take 8 = wireBits b :=
    (congrArg (List.take 8) hlevels).trans (levelsAtClockRises_send b hi _)
  refine ⟨_, es, exec_ready i s h, hes, hbits, fun d u rest hu hup => ?_⟩
  exact exec_recvb_of_wireBits b d hu (hbits ▸ hup)

/-- Settles O41: the one bit sent is the operand. -/
theorem sendackCommand : Obligations.SendackCommand := fun a hi _ =>
  ⟨fun h => exec_sendack a hi h, exec_busy (.sendack a hi), and_opcodeMask_eq_sendack_iff, encode_sendack_zero a, rfl, rfl⟩

end Sys2Proof.Machine

/-! PROOF. The statements about transactions (spec/50_transactions.md): what a sequence of commands leaves the host to see, the
register protocol's two sequences, the echo slave, the documented use, and the host's combination of two bytes. -/

namespace Sys2Proof

/-! ### The address byte -/

/-- Bit 0 of an address byte is its direction flag (R81, R155). -/
theorem addressByte_getLsbD_zero (a : BitVec 7) (dir : Direction) : (addressByte a dir).getLsbD 0 = dir.bit :=
  getLsbD_zero_append_ofBool dir.bit a

/-- The seven bits above it are the slave's address (R81, R155). -/
theorem addressByte_extractLsb' (a : BitVec 7) (dir : Direction) : (addressByte a dir).extractLsb' 1 7 = a :=
  BitVec.extractLsb'_append_eq_left

/-! ### The documented use -/

/-- What the documented use allows after a `START`, the grammar allows, wherever in the transaction the reader stands (R153). -/
theorem phasesThenStop_of_documentedFrom (p : UsePhase) (cs : List Instr) (h : documentedFrom p cs = true) :
    phasesThenStop cs = true := by
  fun_induction documentedFrom p cs with
  | case1 b rest ih | case2 b rest ih | case3 b rest ih | case4 b rest ih => exact ih h
  | case5 mayEnd d a hi rest ih => exact ih h
  | case6 d rest ih | case7 d rest ih => exact ih h
  | case8 d | case9 d => rfl
  | case10 => cases h

/-- The direction flag of the address byte says which phases may follow it (R153, R155). -/
theorem documentedFrom_addressByte (a : BitVec 7) (dir : Direction) (rest : List Instr) :
    documentedFrom .address (.sendba (addressByte a dir) :: rest) =
      documentedFrom (match dir with | .write => .sending | .read => .receiving true) rest := by
  rw [documentedFrom, addressByte_getLsbD_zero]
  cases dir <;> rfl

theorem isTransaction_of_isDocumentedTransaction (cs : List Instr) (h : isDocumentedTransaction cs = true) :
    isTransaction cs = true := by
  unfold isDocumentedTransaction at h
  split at h
  · rfl
  · exact phasesThenStop_of_documentedFrom .address _ h
  · cases h

end Sys2Proof

namespace Sys2Proof.Machine

/-! ### Two bytes as a signed number -/

theorem toNat_combineBytes (high low : Byte) : (combineBytes high low).toNat = high.toNat * 256 + low.toNat := by
  have happend : high ++ low = combineBytes high low :=
    (BitVec.setWidth_eq (high ++ low)).symm.trans BitVec.setWidth_append_eq_shiftLeft_setWidth_or
  rw [← happend, BitVec.toNat_append, ← Nat.shiftLeft_add_eq_or_of_lt low.isLt, Nat.shiftLeft_eq]

/-! ### Draws -/

/-- Three draws, then the rest: the three acknowledges of the register protocol and what follows them (R156, R157). -/
theorem SdaInput.drawMany_add_three (n : Nat) (inp : SdaInput) : inp.drawMany (n + 3) =
    (inp.draw.1 :: inp.draw.2.draw.1 :: inp.draw.2.draw.2.draw.1 :: (inp.draw.2.draw.2.draw.2.drawMany n).1,
      (inp.draw.2.draw.2.draw.2.drawMany n).2) := rfl

/-- Eight samples, however they were drawn, are the bits of the byte they are put together to (R54, R134). -/
theorem wireBits_byteOfSamples_of_length : ∀ {vs : List Level}, vs.length = 8 → wireBits (byteOfSamples vs) = vs
  | [v7, v6, v5, v4, v3, v2, v1, v0], _ => wireBits_byteOfSamples v7 v6 v5 v4 v3 v2 v1 v0

theorem wireBits_injective : Function.Injective wireBits := Function.LeftInverse.injective byteOfSamples_wireBits

/-! ### What commands leave the host to see -/

/-- What the samples of commands reach: the acknowledge, `NACKF`, the received byte, and the input they are drawn from. -/
structure SampledView where
  ackIn  : Level
  nackF  : Bool
  rxData : Byte
  sdaIn  : SdaInput

/-- The sampled view of a state. -/
def State.sampledView (s : State) : SampledView := ⟨s.ackIn, s.nackF, s.rxData, s.sdaIn⟩

/-- The sampled view after one command (R132 to R135): `SENDBA` samples an acknowledge, `RECVB` a byte, the others nothing. -/
def SampledView.after (v : SampledView) : Instr → SampledView
  | .sendba _ => { v with ackIn := v.sdaIn.draw.1, nackF := v.nackF || v.sdaIn.draw.1, sdaIn := v.sdaIn.draw.2 }
  | .recvb _ => { v with rxData := byteOfSamples (v.sdaIn.drawMany 8).1, sdaIn := (v.sdaIn.drawMany 8).2 }
  | .start _ | .stop _ | .sendb _ | .sendack _ _ => v

/-- A ready block completes a command, is ready again, and shows what `SampledView.after` says. -/
theorem exec_sampledView (i : Instr) {s : State} (h : s.Ready) :
    ∃ t, exec i s = .next t ∧ t.Ready ∧ t.sampledView = s.sampledView.after i := by
  have hr := h.1
  cases i with
  | start d => exact ⟨_, exec_start d h, ⟨hr, rfl⟩, rfl⟩
  | stop d => exact ⟨_, exec_stop d h, ⟨hr, rfl⟩, rfl⟩
  | sendb b => exact ⟨_, exec_sendb b h, ⟨hr, rfl⟩, rfl⟩
  | sendba b => exact ⟨_, exec_sendba b h rfl, ⟨hr, rfl⟩, rfl⟩
  | recvb d => exact ⟨_, exec_recvb d h rfl, ⟨hr, rfl⟩, rfl⟩
  | sendack a hi => exact ⟨_, exec_sendack a hi h, ⟨hr, rfl⟩, rfl⟩

/-- A command records one event for each of its micro-operations (R30, R112). -/
theorem exec_hist_length {i : Instr} {s t : State} (h : s.Ready) (ht : exec i s = .next t) :
    t.hist.length = s.hist.length + Instr.len i := by
  obtain rfl := Host.Outcome.next.inj ((exec_ready i s h).symm.trans ht)
  obtain ⟨es, hes, hlen⟩ := performAll_hist (microProgram i) (beginCommand (encode i) s)
  rw [complete_hist, hes, List.length_append, hlen, beginCommand_hist, Instr.len]

theorem execAll_sampledView {cs : List Instr} {s t : State} (h : s.Ready) (ht : execAll cs s = .next t) :
    t.sampledView = cs.foldl SampledView.after s.sampledView := by
  induction cs generalizing s with
  | nil =>
    obtain rfl := Host.Outcome.next.inj ht
    rfl
  | cons i cs ih =>
    obtain ⟨u, hu, hready, hview⟩ := exec_sampledView i h
    rw [execAll_cons hu] at ht
    rw [ih hready ht, hview, List.foldl_cons]

theorem execAll_hist_length {cs : List Instr} {s t : State} (h : s.Ready) (ht : execAll cs s = .next t) :
    t.hist.length = s.hist.length + microOpCount cs := by
  induction cs generalizing s with
  | nil =>
    obtain rfl := Host.Outcome.next.inj ht
    rfl
  | cons i cs ih =>
    obtain ⟨u, hu, hready, -⟩ := exec_sampledView i h
    rw [execAll_cons hu] at ht
    rw [ih hready ht, exec_hist_length h hu, microOpCount, microOpCount, List.map_cons, List.sum_cons, Nat.add_assoc]

/-- Each micro-operation of a sequence takes `TSETTLE + 1` ticks, each command one more (R108). -/
theorem sequenceTicks_eq (cs : List Instr) (t : Delay) :
    sequenceTicks cs t = microOpCount cs * (t.toNat + 1) + cs.length := by
  induction cs with
  | nil => simp [sequenceTicks, microOpCount]
  | cons i cs ih =>
    have hticks : sequenceTicks (i :: cs) t = ticksOf i t + sequenceTicks cs t := rfl
    have hcount : microOpCount (i :: cs) = Instr.len i + microOpCount cs := rfl
    rw [hticks, hcount, ih, ticksOf, Nat.add_mul, List.length_cons]
    omega

/-! ### The register protocol's two sequences -/

/-- What `writeRegister` leaves to see: three acknowledges (R156). -/
theorem SampledView.after_writeRegister (a : BitVec 7) (addr value : Byte) (v : SampledView) {v1 v2 v3 : Level}
    {inp : SdaInput} (h : v.sdaIn.drawMany 3 = ([v1, v2, v3], inp)) :
    (writeRegister a addr value).foldl SampledView.after v =
      { v with ackIn := v3, nackF := v.nackF || v1 || v2 || v3, sdaIn := inp } := by
  rw [SdaInput.drawMany_add_three, SdaInput.drawMany] at h
  cases h
  rfl

/-- What `readRegister` leaves to see: three acknowledges and a byte (R157). -/
theorem SampledView.after_readRegister (a : BitVec 7) (addr : Byte) (v : SampledView) {v1 v2 v3 : Level} {vs : List Level}
    {inp : SdaInput} (h : v.sdaIn.drawMany 11 = (v1 :: v2 :: v3 :: vs, inp)) :
    (readRegister a addr).foldl SampledView.after v =
      ⟨v3, v.nackF || v1 || v2 || v3, byteOfSamples vs, inp⟩ := by
  rw [SdaInput.drawMany_add_three] at h
  cases h
  rfl

/-! ### The echo slave -/

/-- The levels the echo slave presents at the samples of a sequence of commands, in order. -/
def EchoSlave.answers : List Instr → EchoSlave → List Level
  | [], _ => []
  | i :: is, sl => (sl.respond i).1 ++ answers is (sl.respond i).2

/-- The echo slave after a sequence of commands. -/
def EchoSlave.afterAll : List Instr → EchoSlave → EchoSlave
  | [], sl => sl
  | i :: is, sl => afterAll is (sl.respond i).2

/-- A command samples just the levels the slave presents to it: what is listed beyond them it leaves for the next command. -/
theorem exec_of_answers (i : Instr) {s : State} (h : s.Ready) (sl : EchoSlave) (rest : List Level) (n : Nat) :
    ∃ u, exec i { s with sdaIn := ⟨(sl.respond i).1, n⟩ } = .next u ∧ u.Ready ∧ u.sdaIn.drawn = n ∧
      exec i { s with sdaIn := ⟨(sl.respond i).1 ++ rest, n⟩ } = .next { u with sdaIn := ⟨rest, n⟩ } := by
  have hr := h.1
  have hready (inp : SdaInput) : State.Ready { s with sdaIn := inp } := h
  cases i with
  | start d => exact ⟨_, exec_start d (hready _), ⟨hr, rfl⟩, rfl, exec_start d (hready _)⟩
  | stop d => exact ⟨_, exec_stop d (hready _), ⟨hr, rfl⟩, rfl, exec_stop d (hready _)⟩
  | sendb b => exact ⟨_, exec_sendb b (hready _), ⟨hr, rfl⟩, rfl, exec_sendb b (hready _)⟩
  | sendba b => exact ⟨_, exec_sendba b (hready _) rfl, ⟨hr, rfl⟩, rfl, exec_sendba b (hready _) rfl⟩
  | recvb d =>
    have hlen : (sl.respond (.recvb d)).1.length = 8 := by
      rw [EchoSlave.respond]
      split <;> rfl
    have hdraw (rest : List Level) :
        SdaInput.drawMany 8 ⟨(sl.respond (.recvb d)).1 ++ rest, n⟩ = ((sl.respond (.recvb d)).1, ⟨rest, n⟩) :=
      hlen ▸ SdaInput.drawMany_listed (sl.respond (.recvb d)).1 rest n
    have hdraw_all := hdraw []
    rw [List.append_nil] at hdraw_all
    exact ⟨_, exec_recvb d (hready _) hdraw_all, ⟨hr, rfl⟩, rfl, exec_recvb d (hready _) (hdraw rest)⟩
  | sendack a hi => exact ⟨_, exec_sendack a hi (hready _), ⟨hr, rfl⟩, rfl, exec_sendack a hi (hready _)⟩

/-- A sequence runs against the echo slave as it runs with the slave's answers listed beforehand. -/
theorem execAgainst_of_execAll {cs : List Instr} {s t : State} (h : s.Ready) (sl : EchoSlave)
    (ht : execAll cs { s with sdaIn := ⟨sl.answers cs, s.sdaIn.drawn⟩ } = .next t) :
    ∃ inp, execAgainst cs s sl = some ({ t with sdaIn := inp }, sl.afterAll cs) := by
  induction cs generalizing s sl with
  | nil =>
    obtain rfl := Host.Outcome.next.inj ht
    exact ⟨s.sdaIn, rfl⟩
  | cons i cs ih =>
    obtain ⟨u, hu, hready, hdrawn, hu'⟩ :=
      exec_of_answers i h sl (EchoSlave.answers cs (sl.respond i).2) s.sdaIn.drawn
    have hrest := (execAll_cons hu' cs).symm.trans ht
    rw [← hdrawn] at hrest
    obtain ⟨inp, hinp⟩ := ih hready (sl.respond i).2 hrest
    exact ⟨inp, by simp only [execAgainst, hu, hinp, EchoSlave.afterAll]⟩

/-- A sequence against the echo slave in two parts. -/
theorem execAgainst_append {a : List Instr} (b : List Instr) {s t : State} {sl sl' : EchoSlave}
    (h : execAgainst a s sl = some (t, sl')) : execAgainst (a ++ b) s sl = execAgainst b t sl' := by
  induction a generalizing s sl with
  | nil =>
    obtain ⟨rfl, rfl⟩ := Prod.mk.inj (Option.some.inj h)
    rfl
  | cons i a ih =>
    simp only [execAgainst, List.cons_append] at h ⊢
    cases hx : exec i { s with sdaIn := ⟨(sl.respond i).1, s.sdaIn.drawn⟩ } with
    | next u => simp only [hx] at h ⊢; exact ih h
    | fault f => simp [hx] at h
    | refused r => simp [hx] at h

/-- The slave acknowledges its own address and is selected, to be written to or read from. -/
theorem EchoSlave.onAddress_own (sl : EchoSlave) (dir : Direction) :
    sl.onAddress (addressByte sl.address dir) =
      (false, { sl with sel := true, phase := match dir with | .write => .reg | .read => .tx }) := by
  rw [onAddress, addressByte_extractLsb', if_pos rfl, addressByte_getLsbD_zero]
  cases dir <;> rfl

/-- A `writeRegister` to the slave's own address: every sample acknowledges, and the register then holds the value. -/
theorem EchoSlave.writeRegister_own (sl : EchoSlave) (r v : Byte) :
    sl.answers (writeRegister sl.address r v) = [false, false, false] ∧
      (sl.afterAll (writeRegister sl.address r v)).address = sl.address ∧
      (sl.afterAll (writeRegister sl.address r v)).read r = v := by
  have haddr := onAddress_own { sl with phase := .addr } .write
  have hafter : sl.afterAll (writeRegister sl.address r v) =
      { store v { sl with ptr := r } with sel := false, phase := .idle } := by
    simp [writeRegister, afterAll, respond, onSendba, haddr, store]
  refine ⟨by simp [writeRegister, answers, respond, onSendba, haddr], ?_, ?_⟩ <;> rw [hafter]
  · rfl
  · exact read_store v { sl with ptr := r }

/-- A `readRegister` from the slave's own address: every sample acknowledges, then the register's bits come, and the register
still holds them. -/
theorem EchoSlave.readRegister_own (sl : EchoSlave) (r : Byte) :
    sl.answers (readRegister sl.address r) = false :: false :: false :: wireBits (sl.read r) ∧
      (sl.afterAll (readRegister sl.address r)).read r = sl.read r := by
  have haddr_write := onAddress_own { sl with phase := .addr } .write
  have haddr_read := onAddress_own { sl with ptr := r, sel := true, phase := .addr } .read
  simp [readRegister, answers, afterAll, respond, onSendba, haddr_write, haddr_read, read]

/-! ### The obligations -/

/-- Settles O50: a transaction of five commands, three of which sample an acknowledge. -/
theorem writeRegisterSequence : Obligations.WriteRegisterSequence := by
  intro a addr value s v1 v2 v3 inp hs hdraw
  obtain ⟨-, t, -, -, -, -, ht, hidle, -⟩ := transactionMakesOnlyItsConditions 0 0
    [.sendba (addressByte a .write), .sendba addr, .sendba value] s hs (by simp [isInner])
  change execAll (writeRegister a addr value) s = .next t at ht
  obtain ⟨hack, hnack, hdata, hin⟩ := SampledView.mk.inj
    ((execAll_sampledView hs.1 ht).trans (SampledView.after_writeRegister a addr value s.sampledView hdraw))
  have hcount : microOpCount (writeRegister a addr value) = 91 := rfl
  have hlen := hcount ▸ execAll_hist_length hs.1 ht
  exact ⟨t, ht, hidle, hlen, hnack, hack, hdata, hin, hcount, hcount ▸ sequenceTicks_eq _ _⟩

/-- Settles O51: a transaction with one repeated start; the eight samples of its `RECVB` are the bits of the byte received. -/
theorem readRegisterSequence : Obligations.ReadRegisterSequence := by
  intro a addr s vs inp hs hdraw
  obtain ⟨-, t, es, -, -, -, ht, hidle, hes, hlast, hstop, hstart⟩ := transactionMakesOnlyItsConditions 0 0
    [.sendba (addressByte a .write), .sendba addr, .start 0, .sendba (addressByte a .read), .recvb 0, .sendack true 0] s hs
    (by simp [isInner])
  change execAll (readRegister a addr) s = .next t at ht
  obtain ⟨v1, v2, v3, bits, hbits, rfl⟩ : ∃ v1 v2 v3 bits, bits.length = 8 ∧ vs = v1 :: v2 :: v3 :: bits :=
    ⟨_, _, _, _, SdaInput.length_drawMany 8 _, (congrArg Prod.fst hdraw).symm⟩
  obtain ⟨hack, hnack, hdata, hin⟩ := SampledView.mk.inj
    ((execAll_sampledView hs.1 ht).trans (SampledView.after_readRegister a addr s.sampledView hdraw))
  have hcount : microOpCount (readRegister a addr) = 123 := rfl
  have hlen : es.length = 123 := by
    have hhist := execAll_hist_length hs.1 ht
    rw [hes, List.length_append, hcount] at hhist
    exact Nat.add_left_cancel hhist
  exact ⟨v1, v2, v3, byteOfSamples bits, t, es, by rw [wireBits_byteOfSamples_of_length hbits], ht, hidle, hes, hlen, hstart,
    hstop, hlast, hdata, hnack, hack, hin, hcount, hcount ▸ sequenceTicks_eq _ _⟩

/-- Settles O52: the slave's answers are listed beforehand, so the two sequences run as O50 and O51 say. -/
theorem registerRoundTripAgainstEchoSlave : Obligations.RegisterRoundTripAgainstEchoSlave := by
  rintro a r v s sl hs rfl
  obtain ⟨hanswers_write, haddr, hread⟩ := sl.writeRegister_own r v
  obtain ⟨hanswers_read, hkept⟩ := (sl.afterAll (writeRegister sl.address r v)).readRegister_own r
  rw [haddr, hread] at hanswers_read hkept
  obtain ⟨t, ht, hidle, -, hnack, -⟩ := writeRegisterSequence sl.address r v
    { s with sdaIn := ⟨sl.answers (writeRegister sl.address r v), s.sdaIn.drawn⟩ } false false false
    ⟨[], s.sdaIn.drawn⟩ hs (by rw [hanswers_write]; rfl)
  obtain ⟨inp, hwrite⟩ := execAgainst_of_execAll hs.1 sl ht
  generalize sl.afterAll (writeRegister sl.address r v) = sl' at *
  obtain ⟨v1, v2, v3, value, u, -, hdraws, hu, hidle', -, -, -, -, -, hdata, hnack', hack, -⟩ :=
    readRegisterSequence sl.address r { t with sdaIn := ⟨sl'.answers (readRegister sl.address r), inp.drawn⟩ }
      (false :: false :: false :: wireBits v) ⟨[], inp.drawn⟩ hidle (by rw [hanswers_read]; rfl)
  obtain ⟨inp', hreadback⟩ := execAgainst_of_execAll (s := { t with sdaIn := inp }) hidle.1 sl' hu
  obtain ⟨rfl, rfl, rfl, hbits⟩ : false = v1 ∧ false = v2 ∧ false = v3 ∧ wireBits v = wireBits value := by
    simpa using hdraws
  refine ⟨_, _, (execAgainst_append _ hwrite).trans hreadback, hidle', ?_, hack, ?_, hkept⟩
  · exact hdata.trans (wireBits_injective hbits.symm)
  · simpa [hnack] using hnack'

/-- Settles O54: the documented use only narrows the grammar; the address bytes carry the direction flags it asks for. -/
theorem registerProtocolIsWellFormed : Obligations.RegisterProtocolIsWellFormed := by
  refine ⟨isTransaction_of_isDocumentedTransaction, fun a addr value => ?_, fun a addr => ?_⟩
  · exact documentedFrom_addressByte a .write _
  · exact (documentedFrom_addressByte a .write _).trans (documentedFrom_addressByte a .read _)

/-- Settles O53: the number is below 2^15 exactly where its sign bit is 0. -/
theorem axisValueIsSigned : Obligations.AxisValueIsSigned := by
  intro high low
  have hword := toNat_combineBytes high low
  refine ⟨hword, ?_⟩
  rw [axisValue, BitVec.toInt_eq_toNat_cond, hword]
  split_ifs <;> omega

end Sys2Proof.Machine

/-! PROOF. The statements about exceptions (spec/60_exceptions.md): where the machine can fault, why no run from the invariant
gets there, and what a busy block does with a command and a write of `TSETTLE`. -/

namespace Sys2Proof.Machine

/-! ### Where the machine can fault -/

/-- A reserved opcode is in `CMDREG` while `BUSY = 1`: the one kind of state in which the spec gives the tick no meaning
(log entry 10). -/
def State.RunsReserved (s : State) : Prop := s.busy = true ∧ ∃ op, decode s.cmdReg = .reserved op

/-- R33(b) rules such states out. -/
theorem State.Inv.not_runsReserved {s : State} (h : s.Inv) : ¬ s.RunsReserved := by
  rintro ⟨hb, op, hop⟩
  obtain ⟨i, hi, -⟩ := h.busyCommand hb
  cases hi.symm.trans hop

/-- The last branch of a tick needs a command's opcode; the others need none (R103). -/
theorem tick_fault {s : State} {f : Fault} (h : tick s = .fault f) : s.RunsReserved := by
  cases hb : s.busy with
  | false => cases (tick_idle hb).symm.trans h
  | true =>
    cases hi : decode s.cmdReg with
    | reserved op => exact ⟨hb, op, hi⟩
    | command i =>
      simp only [tick, hi] at h
      split_ifs at h

/-- A host access is admitted or refused; neither is a fault (R52). -/
theorem admitted_ne_fault (off bytes : Nat) (after : State) (f : Fault) : admitted off bytes after ≠ .fault f := by
  unfold admitted
  split <;> simp

/-- No command's meaning is a fault (R170). -/
theorem exec_ne_fault (i : Instr) (s : State) (f : Fault) : exec i s ≠ .fault f := by
  rcases exec_cases i s with ⟨-, he⟩ | ⟨-, -, he⟩ | ⟨-, -, he⟩ <;> simp [he]

theorem commandStep_ne_fault (v : RegWord) (s : State) (f : Fault) : commandStep v s ≠ .fault f := by
  unfold commandStep
  split
  · exact exec_ne_fault _ s f
  · simp

/-- A step faults only where it is a tick, or a poll that waits by one. -/
theorem step_fault {s : State} {f : Fault} (h : step s = .fault f) : s.RunsReserved := by
  cases ha : s.agenda with
  | nil => exact tick_fault ((step_of_agenda_nil s ha).symm.trans h)
  | cons a rest =>
    have hact := (step_of_agenda_cons s a rest ha).symm.trans h
    cases a with
    | tick => exact tick_fault (s := { s with agenda := rest }) hact
    | read off bytes => exact (admitted_ne_fault off bytes _ f hact).elim
    | write off bytes v => exact (admitted_ne_fault off bytes _ f hact).elim
    | rst l => cases hact
    | poll =>
      cases hb : s.busy with
      | false => cases (step_poll_idle ha hb).symm.trans h
      | true => exact tick_fault ((step_poll_busy s rest ha hb).symm.trans h)
    | command v => exact (commandStep_ne_fault v _ f hact).elim

/-! ### The obligations -/

/-- Settles O59: every step keeps the invariant, and the invariant rules out the states in which a step faults. -/
theorem noRunFaults : Obligations.NoRunFaults := by
  intro n
  induction n with
  | zero => exact fun s f _ => nofun
  | succ n ih =>
    intro s f hs
    cases ht : step s with
    | next t =>
      rw [run_succ_next n s t ht]
      exact ih t f (inv_step s t hs ht)
    | fault g => exact (hs.not_runsReserved (step_fault ht)).elim
    | refused r => simp [run, ht]

/-- Settles O16: both are refused by the overrun event. -/
theorem busyRefusesCommandsAndDelayWrites : Obligations.BusyRefusesCommandsAndDelayWrites := fun s hr hb =>
  ⟨fun i => exec_busy i hr hb, fun v => (hostWrite_tSettle v s hr).trans (writeTSettle_busy v s hb)⟩

end Sys2Proof.Machine

/-! PROOF. The statements about reset (spec/70_reset_and_hazards.md): the reset step, what a held `rst` leaves of every kind of
step, and that nothing else records `EvRESET`. -/

namespace Sys2Proof.Machine

/-! ### A rise of `rst`, and `rst` held at 1 (R190) -/

theorem setRst_rise {s : State} (hr : s.rst = false) : setRst true s = { resetStep s with rst := true } := by
  simp [setRst, hr]

theorem setRst_held (l : Level) {s : State} (hr : s.rst = true) : setRst l s = { s with rst := l } := by
  simp [setRst, hr]

theorem setRst_true_held {s : State} (hr : s.rst = true) : setRst true s = s := by
  rw [setRst_held true hr, ← hr]

theorem tick_held {s : State} (hr : s.rst = true) : tick s = .next s := by
  simp [tick, hr]

theorem exec_held (i : Instr) {s : State} (hr : s.rst = true) : exec i s = .next s := by
  rw [exec_eq_runCommand, runCommand, if_pos hr]

/-- A host read shows nothing but the registers and the level on `sda_i` (R41, R42). -/
theorem readValue_congr {s t : State} (h : s.registers = t.registers) (off : Nat) (sda : Level) :
    readValue off sda s = readValue off sda t := by
  cases s
  cases t
  cases h
  rfl

/-! ### What records `EvRESET` -/

theorem uopEvent_ne_reset (u : Uop) (s : State) : uopEvent u s ≠ .reset := by
  cases u with
  | sc l => exact nofun
  | sd l =>
    change sdEvent s.sclOut s.sdaOut l ≠ .reset
    rcases sdEvent_cases s.sclOut s.sdaOut l with ⟨-, -, -, he⟩ | ⟨-, -, -, he⟩ | ⟨-, he⟩ <;>
      rw [he] <;> exact nofun
  | rd d => exact nofun

theorem perform_count_reset (u : Uop) (s : State) : (perform u s).hist.count .reset = s.hist.count .reset := by
  simp [perform_hist, List.count_append, uopEvent_ne_reset u s]

theorem performAll_count_reset (us : List Uop) (s : State) :
    (performAll us s).hist.count .reset = s.hist.count .reset := by
  induction us generalizing s with
  | nil => rfl
  | cons u us ih => exact (ih (perform u s)).trans (perform_count_reset u s)

theorem tick_count_reset (s t : State) (h : tick s = .next t) : t.hist.count .reset = s.hist.count .reset := by
  rcases tick_cases s t h with ⟨rfl, -⟩ | ⟨-, -, -, rfl⟩ | ⟨-, -, -, i, -, ⟨u, -, -, rfl⟩ | ⟨-, rfl⟩⟩
  · rfl
  · rfl
  · exact perform_count_reset u s
  · rfl

/-- A host write records no line event at all (R43, R58). -/
theorem hostWrite_hist (off : Nat) (v : RegWord) (s : State) : (hostWrite off v s).hist = s.hist := by
  rcases hostWrite_cases off v s with h | ⟨-, -, h⟩ | ⟨-, -, h⟩ | ⟨-, -, -, i, -, h⟩ | ⟨-, -, h⟩ | ⟨-, -, -, h⟩ <;>
    rw [h] <;> rfl

theorem exec_count_reset (i : Instr) (s t : State) (h : exec i s = .next t) :
    t.hist.count .reset = s.hist.count .reset := by
  rcases exec_cases i s with ⟨-, he⟩ | ⟨-, -, he⟩ | ⟨-, -, he⟩ <;>
    obtain rfl := Host.Outcome.next.inj (he.symm.trans h)
  · rfl
  · rfl
  · exact performAll_count_reset (microProgram i) (beginCommand (encode i) s)

/-- A change of `rst` records `EvRESET` only where it rises. -/
theorem setRst_count_reset {l : Level} {s : State} (hne : (setRst l s).hist.count .reset ≠ s.hist.count .reset) :
    l = true ∧ s.rst = false := by
  rcases setRst_cases l s with ⟨hl, hr, -⟩ | ⟨-, h⟩
  · exact ⟨hl, hr⟩
  · rw [h] at hne
    exact (hne rfl).elim

/-! ### The obligations -/

/-- Settles O3: each operation tests `rst` first, and a host read shows the registers alone. -/
theorem heldResetFreezesTheBlock : Obligations.HeldResetFreezesTheBlock := fun s hr hregs =>
  ⟨tick_held hr, fun off v => hostWrite_held off v s hr, readValue_congr hregs, fun i => exec_held i hr,
    congrArg Host.Outcome.next (setRst_true_held hr), congrArg Host.Outcome.next (setRst_held false hr)⟩

/-- Settles O4: of the kinds of step only a rise of `rst` records `EvRESET`. -/
theorem onlyRstResets : Obligations.OnlyRstResets := by
  intro s t h hne
  rcases step_cases s t h with ⟨b, as, htick, -⟩ | ⟨rest, -, rfl⟩ | ⟨off, bytes, rest, -, rfl⟩ |
    ⟨off, bytes, v, rest, -, -, rfl⟩ | ⟨l, rest, ha, rfl⟩ | ⟨v, i, rest, -, -, he⟩ | ⟨v, op, rest, -, -, rfl⟩
  · exact (hne (tick_count_reset { s with agenda := as } t htick)).elim
  · exact (hne rfl).elim
  · obtain ⟨inp, w, hread, -⟩ := hostRead_cases off { s with agenda := rest }
    rw [hread] at hne
    exact (hne rfl).elim
  · exact (hne (congrArg _ (hostWrite_hist off v _))).elim
  · obtain ⟨rfl, hr⟩ := setRst_count_reset (s := { s with agenda := rest }) hne
    exact ⟨hr, rest, ha⟩
  · exact (hne (exec_count_reset i { s with agenda := rest } t he)).elim
  · exact (hne (congrArg _ (hostWrite_hist 0x00 v _))).elim

/-- Settles O2: the rise of `rst` is the reset step, which keeps what belongs to the other agents. -/
theorem resetStepFromAnyState : Obligations.ResetStepFromAnyState := fun _ hr =>
  ⟨_, congrArg Host.Outcome.next (setRst_rise hr), rfl, rfl, rfl, rfl, rfl, rfl⟩

end Sys2Proof.Machine
